-- ==== Sys2Proof/Word.lean ====
section
/-! DEFINITION. The storage types of the core: the 16-bit word, the 8-bit character, the register index. -/

namespace Sys2Proof

/-- A word: 16 bits, 0 to 65535 inclusive (R20, conflict C1, decision D1). Every memory cell, register, stack entry and the
instruction pointer holds one. -/
abbrev Word := BitVec 16

/-- A character of the input and output streams: 8 bits (R4 `CHAR_BITS`, R33, R34). -/
abbrev Byte := BitVec 8

/-- The index of a register, 0 to 7 (R22). -/
abbrev RegIdx := Fin 8

end Sys2Proof
end

