-- ==== Sys2Proof/Config.lean ====
section
/-! DEFINITION. The fixed parameters of R4 and the open parameters of R5. -/

namespace Sys2Proof

/-- `MEM_WORDS` (R4): the memory cells have addresses 0 to 32767. -/
abbrev memWords : Nat := 32768

/-- `MODULUS` (R4): every arithmetic and logic result is reduced modulo this. -/
abbrev modulus : Nat := 32768

/-- `REG_BASE` (R4): the operand word that denotes register 0. -/
abbrev regBase : Nat := 32768

/-- `REG_LIMIT` (R4): the smallest operand word that is invalid. -/
abbrev regLimit : Nat := 32776

/-- `NOPCODES` (R4): the opcode words 0 to 21 are defined. -/
abbrev nOpcodes : Nat := 22

/-- The open parameters of R5, fixed for a launch. A state carries them (State.params), so whatever is said of every state is
said of every value of them. -/
structure Config where
  /-- `STACK_CAPACITY` (R5, D11): the greatest depth of the stack; `none` is the spec's `unbounded`. -/
  stackCapacity : Option Nat
  /-- `IN_EOF_FATAL` (R5, D9): whether `in` at end of input is a fault. -/
  inEofFatal : Bool
  deriving DecidableEq, Repr

/-- The defaults of R5: an unbounded stack, and end of input is not fatal. -/
def Config.default : Config := { stackCapacity := none, inEofFatal := false }

end Sys2Proof
end

