-- ==== Sys2Proof/Syntax.lean ====
section
/-! DEFINITION. The syntax of the 22 instructions of R66, their operands in the three classes of R63. -/

namespace Sys2Proof

/-- An operand word by its class (R63). The class does not depend on the operand's role: a literal may stand, illegally, in a
register-slot position, and the instruction then faults when it executes (R68). -/
inductive Operand where
  /-- A word 0 to 32767: the 15-bit number itself. -/
  | literal (v : BitVec 15)
  /-- A word 32768 to 32775: a reference to register `i`. -/
  | register (i : RegIdx)
  /-- A word 32776 to 65535, "invalid as operands"; the word is kept, since a fault reports it (R160). -/
  | invalid (w : Word)
  deriving DecidableEq, Repr

/-- One constructor per row of R66, operands in the order `a`, `b`, `c`. The mnemonic `in` is a keyword of Lean: its
constructor is `inp`. -/
inductive Instr where
  | halt
  | set (a b : Operand)
  | push (a : Operand)
  | pop (a : Operand)
  | eq (a b c : Operand)
  | gt (a b c : Operand)
  | jmp (a : Operand)
  | jt (a b : Operand)
  | jf (a b : Operand)
  | add (a b c : Operand)
  | mult (a b c : Operand)
  | mod (a b c : Operand)
  | and (a b c : Operand)
  | or (a b c : Operand)
  | not (a b : Operand)
  | rmem (a b : Operand)
  | wmem (a b : Operand)
  | call (a : Operand)
  | ret
  | out (a : Operand)
  | inp (a : Operand)
  | noop
  deriving DecidableEq, Repr

/-- The role of an operand position, fixed by the opcode (R64). -/
inductive Role where
  | regSlot
  | value
  deriving DecidableEq, Repr

/-- The operands of an instruction with their roles, in the order `a`, `b`, `c` (the column "operands" of R66; the formats of
R61). -/
def Instr.operands : Instr → List (Role × Operand)
  | .halt | .ret | .noop => []
  | .pop a | .inp a => [(.regSlot, a)]
  | .push a | .jmp a | .call a | .out a => [(.value, a)]
  | .set a b | .not a b | .rmem a b => [(.regSlot, a), (.value, b)]
  | .jt a b | .jf a b | .wmem a b => [(.value, a), (.value, b)]
  | .eq a b c | .gt a b c | .add a b c | .mult a b c | .mod a b c | .and a b c | .or a b c =>
    [(.regSlot, a), (.value, b), (.value, c)]

end Sys2Proof
end

