-- ==== Sys2Proof/WellFormed.lean ====
section
/-! DEFINITION. Which terms of the syntax stand for operand words (canonical), and which instructions have only legal operands
(well formed). -/

namespace Sys2Proof

/-- The term is the class of some operand word: only a word of 32776 or more is `invalid` (R63). -/
def Operand.canonical : Operand → Bool
  | .literal _ => true
  | .register _ => true
  | .invalid w => decide (regLimit ≤ w.toNat)

/-- The operand classes that are legal in a role (R64, R68). -/
def Role.accepts : Role → Operand → Bool
  | .regSlot, .register _ => true
  | .value, .literal _ => true
  | .value, .register _ => true
  | _, _ => false

/-- Every operand is the class of a word: the instruction has an encoding. The decoder gives only these. -/
def Instr.canonical (i : Instr) : Bool := i.operands.all fun p => p.2.canonical

/-- Every operand is legal in its role (R64, R68): the instruction raises neither InvalidRegister nor InvalidAddress. -/
def Instr.wellFormed (i : Instr) : Bool := i.operands.all fun p => p.1.accepts p.2

end Sys2Proof
end

