-- ==== Sys2Proof/Decode.lean ====
section
/-! DEFINITION. The decoder of R60 to R69, total on any words, and the encoder beside it. -/

namespace Sys2Proof

/-- The class of an operand word (R63). -/
def classify (w : Word) : Operand :=
  if w.toNat < regBase then .literal (BitVec.ofNat 15 w.toNat)
  else if h : w.toNat - regBase < 8 then .register ⟨w.toNat - regBase, h⟩
  else .invalid w

/-- The operand word of a class (R63): a literal is the number itself, register `i` is `32768 + i`. It is also the raw word that a
fault reports. -/
def Operand.word : Operand → Word
  | .literal v => BitVec.ofNat 16 v.toNat
  | .register i => BitVec.ofNat 16 (regBase + i.val)
  | .invalid w => w

/-- Why a sequence of words is not an instruction. Safe: the step raises the spec's own fault for each. -/
inductive DecodeError where
  /-- There is no opcode word. -/
  | noOpcode
  /-- The opcode word is not in 0 to 21 (R67). -/
  | unknownOpcode (op : Word)
  /-- The opcode is defined and an operand word of it is missing. -/
  | truncated (op : Word)
  deriving DecidableEq, Repr

/-- The instruction of an opcode word and the operand words `a`, `b`, `c` (R62, R65, R66): the opcode is matched as a whole integer
and is never resolved; operand words the opcode does not have are ignored. -/
def decode (op a b c : Word) : Except DecodeError Instr :=
  match op.toNat with
  | 0 => .ok .halt
  | 1 => .ok (.set (classify a) (classify b))
  | 2 => .ok (.push (classify a))
  | 3 => .ok (.pop (classify a))
  | 4 => .ok (.eq (classify a) (classify b) (classify c))
  | 5 => .ok (.gt (classify a) (classify b) (classify c))
  | 6 => .ok (.jmp (classify a))
  | 7 => .ok (.jt (classify a) (classify b))
  | 8 => .ok (.jf (classify a) (classify b))
  | 9 => .ok (.add (classify a) (classify b) (classify c))
  | 10 => .ok (.mult (classify a) (classify b) (classify c))
  | 11 => .ok (.mod (classify a) (classify b) (classify c))
  | 12 => .ok (.and (classify a) (classify b) (classify c))
  | 13 => .ok (.or (classify a) (classify b) (classify c))
  | 14 => .ok (.not (classify a) (classify b))
  | 15 => .ok (.rmem (classify a) (classify b))
  | 16 => .ok (.wmem (classify a) (classify b))
  | 17 => .ok (.call (classify a))
  | 18 => .ok .ret
  | 19 => .ok (.out (classify a))
  | 20 => .ok (.inp (classify a))
  | 21 => .ok .noop
  | _ => .error (.unknownOpcode op)

/-- How many operand words an opcode has (column "n" of R66, R62); `none` for an illegal opcode, which has no length. -/
def operandCount (op : Word) : Option Nat :=
  match op.toNat with
  | 0 | 18 | 21 => some 0
  | 2 | 3 | 6 | 17 | 19 | 20 => some 1
  | 1 | 7 | 8 | 14 | 15 | 16 => some 2
  | 4 | 5 | 9 | 10 | 11 | 12 | 13 => some 3
  | _ => none

/-- The first instruction of a sequence of words, with the words after it. -/
def decodeWords : List Word → Except DecodeError (Instr × List Word)
  | [] => .error .noOpcode
  | op :: rest =>
    match operandCount op with
    | none => .error (.unknownOpcode op)
    | some n =>
      if rest.length < n then .error (.truncated op)
      else
        match decode op (rest.getD 0 0) (rest.getD 1 0) (rest.getD 2 0) with
        | .ok i => .ok (i, rest.drop n)
        | .error e => .error e

/-- The opcode word of an instruction (column "code" of R66). -/
def Instr.opcode : Instr → Word
  | .halt => 0
  | .set _ _ => 1
  | .push _ => 2
  | .pop _ => 3
  | .eq _ _ _ => 4
  | .gt _ _ _ => 5
  | .jmp _ => 6
  | .jt _ _ => 7
  | .jf _ _ => 8
  | .add _ _ _ => 9
  | .mult _ _ _ => 10
  | .mod _ _ _ => 11
  | .and _ _ _ => 12
  | .or _ _ _ => 13
  | .not _ _ => 14
  | .rmem _ _ => 15
  | .wmem _ _ => 16
  | .call _ => 17
  | .ret => 18
  | .out _ => 19
  | .inp _ => 20
  | .noop => 21

/-- The words of an instruction: the opcode word, then one word for each operand in the order `a`, `b`, `c` (R60). -/
def encode (i : Instr) : List Word := i.opcode :: i.operands.map fun p => p.2.word

/-- Word `k` of a number whose bit 0 is the least significant bit of word 0, all bits from `nbits` up being 0. -/
def tableWord (nbits w k : Nat) : Word := BitVec.ofNat 16 (w % 2 ^ nbits / 65536 ^ k)

/-- The instruction the decoder reads from a row of spec/opcode_table.json, its words numbered as the table numbers them and every
bit above `nbits` 0. -/
def decodeTableWord (nbits w : Nat) : Option Instr :=
  match decode (tableWord nbits w 0) (tableWord nbits w 1) (tableWord nbits w 2) (tableWord nbits w 3) with
  | .ok i => some i
  | .error _ => none

end Sys2Proof
end

