-- ==== Sys2Proof/Machine/State.lean ====
section
/-! DEFINITION. The state of the core (R21) with the streams at its interfaces (R33, R34), the reasons a step stops, and the state
right after reset (R36). -/

namespace Sys2Proof.Machine

/-- What a memory access was for (R42, R43). -/
inductive Access where
  | fetch
  | read
  | write
  deriving DecidableEq, Repr

/-- The fault kinds of R160, each with its column "offending value reported". -/
inductive FaultCause where
  /-- The opcode word is not in 0 to 21 (R161). -/
  | unknownOpcode (op : Word)
  /-- The raw word of a register-slot operand is not a register reference (R162). -/
  | invalidRegister (raw : Word)
  /-- The raw word of a value operand is 32776 or more (R163). -/
  | invalidAddress (raw : Word)
  /-- `pop` on an empty stack (R164). -/
  | stackUnderflow
  /-- `mod` by zero; the resolved dividend (R165). -/
  | arithmeticError (dividend : Word)
  /-- A memory access at an address of 32768 or more (R166). -/
  | addressOutOfRange (addr : Word) (kind : Access)
  /-- A push on a full stack; the word that was to be pushed (R27). -/
  | stackOverflow (v : Word)
  /-- `in` at end of input where that is fatal (R154). -/
  | endOfInput
  deriving DecidableEq, Repr

/-- The fault information of R171: the kind with its offending value, the address of the opcode word, and the opcode word, absent
when its own fetch faulted. -/
structure FaultReport where
  cause : FaultCause
  pc0 : Word
  op : Option Word
  deriving DecidableEq, Repr

/-- The two normal ends of a run (R30, R196). -/
inductive HaltReason where
  | haltInstr
  | retEmptyStack
  deriving DecidableEq, Repr

/-- The run status (R30). -/
inductive Status where
  | running
  | halted (r : HaltReason)
  | faulted (f : FaultReport)
  deriving DecidableEq, Repr

/-- The memory (R25): the cells that do not hold 0, as (address, word), addresses rising. The smallest addressable unit is the
16-bit word and the core has no bytes and no byte order (R40, R41; log entry 1). -/
abbrev Memory := List (Nat × Word)

/-- The state. The first five fields are the architectural state (R21), `stack` in the order pushed, so that entry `k` of the list
is the spec's `stack[k]` and `sp` is its length. The last four belong to the launch and the host (R21, R33, R34) and stand here
because a step is a function of the state: the open parameters, the input bytes delivered and not consumed (oldest first), the
end-of-input mark, and the output bytes not yet taken by the host (oldest first). -/
structure State where
  regs : Vector Word 8
  pc : Word
  mem : Memory
  stack : List Word
  status : Status
  params : Config
  inq : List Byte
  ineof : Bool
  out : List Byte
  deriving DecidableEq, Repr

/-- Why a core has no step in a state; the state itself does not change. The faults of R160 are none of these: the spec describes the
state they leave (R170), so the step that raises one answers that state. -/
inductive Fault where
  /-- Raised by `step` on a core that has halted: "the core takes no further step" (R30, R80). Safe: the core has no step. -/
  | runHalted (r : HaltReason)
  /-- Raised by `step` on a core that has faulted: it cannot resume (R30, R173). Safe: the core has no step. -/
  | runFaulted (f : FaultReport)
  /-- Raised by `in` with a legal operand while no byte waits and the input has not ended: the step is not enabled (R155, D10). The run
  is not over, and the host's next delivery or its end mark enables the step (log entry 2). Safe: the core has no step. -/
  | heldForInput
  deriving DecidableEq, Repr

/-- Why an instruction has no meaning in the model. -/
inductive Refusal where
  /-- Raised by an arm of `exec` whose instruction has no meaning yet; no arm is one. Safe: the model stops. -/
  | notModelled (mnemonic : String)
  deriving DecidableEq, Repr

/-- What an instruction or a step answers. -/
abbrev Result := Host.Outcome State Fault Refusal

/-- The machine right after reset (R36, R190): registers 0, `pc` 0, memory 0, the stack empty, `Running`, the output empty. The
parameters are the defaults of R5. The input is "whatever the host supplies" (R36): here nothing yet, and not ended (log entry 4). -/
def State.reset : State where
  regs := Vector.replicate 8 0
  pc := 0
  mem := []
  stack := []
  status := .running
  params := Config.default
  inq := []
  ineof := false
  out := []

end Sys2Proof.Machine
end

