-- ==== Sys2Proof/Machine/Memory.lean ====
section
/-! DEFINITION. The memory of R25 and R40 to R48: its canonical form, reading and writing one cell, the access primitives of R42 and
R43 with their range check, and placing a sequence of words. -/

namespace Sys2Proof.Machine

/-- The word of a cell. A cell that is not listed holds 0, its reset value (R25, R36). -/
def Memory.peek : Memory → Nat → Word
  | [], _ => 0#16
  | (a, v) :: m, addr => if a = addr then v else Memory.peek m addr

/-- A cell in front of a list of cells; a cell that holds 0 is not listed. -/
def Memory.consCell (addr : Nat) (w : Word) (m : Memory) : Memory := if w = 0#16 then m else (addr, w) :: m

/-- Replaces the word of a cell, keeping the addresses rising. -/
def Memory.poke : Memory → Nat → Word → Memory
  | [], addr, w => Memory.consCell addr w []
  | (a, v) :: m, addr, w =>
    if addr < a then Memory.consCell addr w ((a, v) :: m)
    else if addr = a then Memory.consCell addr w m
    else (a, v) :: Memory.poke m addr w

/-- The addresses of a list of cells rise from `lo`. -/
def Memory.risesFrom : Nat → Memory → Bool
  | _, [] => true
  | lo, (a, _) :: m => decide (lo ≤ a) && Memory.risesFrom (a + 1) m

/-- The canonical form: addresses strictly rising, below 32768 (R25), and no cell listed that holds 0. Two memories of this form with
the same cells are the same list. -/
def Memory.wf (m : Memory) : Bool :=
  Memory.risesFrom 0 m && m.all fun c => decide (c.1 < memWords) && decide (c.2 ≠ 0#16)

/-- `MemRead(addr, 1)` (R42). -/
def memRead (m : Memory) (addr : Word) (kind : Access) : Except FaultCause Word :=
  if addr.toNat < memWords then .ok (m.peek addr.toNat) else .error (.addressOutOfRange addr kind)

/-- `MemWrite(addr, 1, v)` (R43). -/
def memWrite (m : Memory) (addr v : Word) : Except FaultCause Memory :=
  if addr.toNat < memWords then .ok (m.poke addr.toNat v) else .error (.addressOutOfRange addr .write)

/-- Places words at the addresses from `base` (R32), each verbatim. -/
def Memory.place (m : Memory) (base : Nat) : List Word → Memory
  | [] => m
  | w :: ws => (Memory.place m (base + 1) ws).poke base w

end Sys2Proof.Machine
end

