-- ==== Sys2Proof/Machine/Ops.lean ====
section
/-! DEFINITION. The shared operations over the state: registers, `pc`, the stack (R26 to R29), the streams (R33, R34), taking a
fault (R170), and how an instruction ends. -/

namespace Sys2Proof.Machine

/-- `x[i]`: the whole content of a register (R22). -/
def State.reg (s : State) (i : RegIdx) : Word := s.regs[i.val]

/-- `x[i] <- v`: replaces the whole content of a register (R22); none is hardwired. -/
def State.setReg (s : State) (i : RegIdx) (v : Word) : State := { s with regs := s.regs.set i.val v }

/-- `pc <- target` (R23). -/
def State.setPc (s : State) (target : Word) : State := { s with pc := target }

/-- `pc` after an instruction that does not transfer control: past its opcode word and its `n` operand words (R88). -/
def State.advance (s : State) (n : Nat) : State := s.setPc (s.pc + BitVec.ofNat 16 (1 + n))

/-- `status <- st` (R30). -/
def State.setStatus (s : State) (st : Status) : State := { s with status := st }

def State.setMem (s : State) (m : Memory) : State := { s with mem := m }

/-- `sp`: the number of words on the stack (R26). -/
def State.sp (s : State) : Nat := s.stack.length

/-- `Push(v)` (R27). -/
def State.push (s : State) (v : Word) : Except FaultCause State :=
  if s.params.stackCapacity = some s.sp then .error (.stackOverflow v)
  else .ok { s with stack := s.stack ++ [v] }

/-- `Pop()` (R28): the most recently pushed word and the state without it; `none` on an empty stack, where the two callers differ. -/
def State.pop (s : State) : Option (Word × State) :=
  match s.stack.getLast? with
  | none => none
  | some v => some (v, { s with stack := s.stack.dropLast })

/-- `InAvail()` and `InTake()` (R33): the oldest delivered byte and the state without it; `none` when no byte waits. -/
def State.inTake (s : State) : Option (Byte × State) :=
  match s.inq with
  | [] => none
  | b :: rest => some (b, { s with inq := rest })

/-- `InEof()` (R33): no byte waits and the stream has ended. -/
def State.inEof (s : State) : Bool := s.inq.isEmpty && s.ineof

/-- `OutPut(b)` (R34). -/
def State.outPut (s : State) (b : Byte) : State := { s with out := s.out ++ [b] }

/-- `zext_16` of a byte (R7). -/
def zext16 (b : Byte) : Word := BitVec.ofNat 16 b.toNat

/-- `w[7:0]` (R6). -/
def lowByte (w : Word) : Byte := BitVec.ofNat 8 w.toNat

/-- A `raise` inside an instruction: its cause and how many words of the instruction were fetched before it. -/
structure Raised where
  fetched : Nat
  cause : FaultCause
  deriving DecidableEq, Repr

/-- Fault entry (R170), from the state in which the step began: `pc` is left past the words fetched, the status records the fault
with the report of R171, nothing else changes. There is no vector and no handler, and no return from a fault (R173). -/
def State.raise (s : State) (op : Option Word) (e : Raised) : State :=
  { s with pc := s.pc + BitVec.ofNat 16 e.fetched, status := .faulted ⟨e.cause, s.pc, op⟩ }

/-- A cause raised after `n` words of the instruction have been fetched. -/
def raiseAt {α : Type} (n : Nat) : Except FaultCause α → Except Raised α
  | .ok a => .ok a
  | .error c => .error ⟨n, c⟩

/-- The end of an instruction: its next state, or the fault it raised, taken in the state in which it began. -/
def finish (i : Instr) (s : State) : Except Raised State → Result
  | .ok t => .next t
  | .error e => .next (s.raise (some i.opcode) e)

/-- The number of a fault kind (R160, decision D13). No rule depends on it. -/
def FaultCause.code : FaultCause → Nat
  | .unknownOpcode _ => 1
  | .invalidRegister _ => 2
  | .invalidAddress _ => 3
  | .stackUnderflow => 4
  | .arithmeticError _ => 5
  | .addressOutOfRange _ _ => 6
  | .stackOverflow _ => 7
  | .endOfInput => 8

end Sys2Proof.Machine
end

