-- ==== Sys2Proof/Machine/Operands.lean ====
section
/-! DEFINITION. The operand resolver (R83 to R87): `RegSlot` and `Val`, each joined to the `Fetch()` of its own word. -/

namespace Sys2Proof.Machine

/-- The register a register-slot operand names (R83); `none` for a literal and for an invalid word. -/
def regOf : Operand → Option RegIdx
  | .register i => some i
  | .literal _ => none
  | .invalid _ => none

/-- The value of a value operand (R84): a literal as it is, a register's whole current content; `none` for an invalid word. The result
is final: it is never looked at as a register reference again (R85). -/
def State.valueOf (s : State) : Operand → Option Word
  | .literal v => some (BitVec.ofNat 16 v.toNat)
  | .register i => some (s.reg i)
  | .invalid _ => none

/-- Operand word `k` of the instruction at `pc` (1 for `a`, 2 for `b`, 3 for `c`) is a cell of memory: its address does not pass the
top (R82). -/
def State.operandExists (s : State) (k : Nat) : Bool := decide (s.pc.toNat + k < memWords)

/-- The `Fetch()` of operand word `k` faults: `k` words were fetched, and the next one is at an address of 32768 or more (R82). -/
def State.fetchPastTop (s : State) (k : Nat) : Raised :=
  ⟨k, .addressOutOfRange (s.pc + BitVec.ofNat 16 k) .fetch⟩

/-- `RegSlot(Fetch())` for operand word `k`: the fetch, then at once the classification (R83, R86). -/
def regSlot (s : State) (k : Nat) (o : Operand) : Except Raised RegIdx :=
  if s.operandExists k then
    match regOf o with
    | some i => .ok i
    | none => .error ⟨k + 1, .invalidRegister o.word⟩
  else .error (s.fetchPastTop k)

/-- `Val(Fetch())` for operand word `k`: the fetch, then at once the resolution (R84, R86). -/
def val (s : State) (k : Nat) (o : Operand) : Except Raised Word :=
  if s.operandExists k then
    match s.valueOf o with
    | some v => .ok v
    | none => .error ⟨k + 1, .invalidAddress o.word⟩
  else .error (s.fetchPastTop k)

end Sys2Proof.Machine
end

