-- ==== Sys2Proof/Machine/Flags.lean ====
section
/-! DEFINITION. The core has no flags (R24): the truth value of a comparison is a word (R113). -/

namespace Sys2Proof.Machine

/-- The word of a truth value: 1 for true, 0 for false (R113). -/
def truthWord (p : Bool) : Word := if p then 1 else 0

/-- `b = c` over the full 16 bits (R113, R114). -/
def eqWord (b c : Word) : Word := truthWord (decide (b.toNat = c.toNat))

/-- `b > c`, unsigned, over the full 16 bits (R113, R116). -/
def gtWord (b c : Word) : Word := truthWord (decide (c.toNat < b.toNat))

/-- The condition of `jt` and `jf`: any word but 0 is true (R122, R124). -/
def isNonzero (a : Word) : Bool := decide (a.toNat ≠ 0)

end Sys2Proof.Machine
end

