-- ==== Sys2Proof/Machine/Compare.lean ====
section
/-! DEFINITION. The meanings of `eq` and `gt` (R113 to R116), and the shape they share with the arithmetic: a register slot and two
values. -/

namespace Sys2Proof.Machine

/-- An instruction of format `F3RVV` (R61) that writes a word computed from its two values: all operands are fetched and resolved in
the order `a`, `b`, `c`, then the register is written (R86, R87). -/
def execRVV (i : Instr) (a b c : Operand) (f : Word → Word → Word) (s : State) : Result :=
  finish i s do
    let r ← regSlot s 1 a
    let u ← val s 2 b
    let v ← val s 3 c
    return (s.setReg r (f u v)).advance 3

/-- `eq` (R114). -/
def execEq (a b c : Operand) (s : State) : Result := execRVV (.eq a b c) a b c eqWord s

/-- `gt` (R116). -/
def execGt (a b c : Operand) (s : State) : Result := execRVV (.gt a b c) a b c gtWord s

end Sys2Proof.Machine
end

