-- ==== Sys2Proof/Machine/Alu.lean ====
section
/-! DEFINITION. The meanings of `add`, `mult`, `mod`, `and`, `or` and `not` (R130 to R141): exact results on natural numbers, reduced
modulo 32768, the operands not reduced beforehand. -/

namespace Sys2Proof.Machine

/-- An exact result reduced modulo 32768, bit 15 zero (R130). -/
def reduce (n : Nat) : Word := BitVec.ofNat 16 (n % modulus)

/-- `(b + c) mod 32768` (R131). -/
def addWord (b c : Word) : Word := reduce (b.toNat + c.toNat)

/-- `(b * c) mod 32768` (R133). -/
def multWord (b c : Word) : Word := reduce (b.toNat * c.toNat)

/-- `(b mod c) mod 32768` (R135), for a divisor that is not 0. -/
def modWord (b c : Word) : Word := reduce (b.toNat % c.toNat)

/-- `(b AND c) mod 32768` (R137). -/
def andWord (b c : Word) : Word := reduce (b &&& c).toNat

/-- `(b OR c) mod 32768` (R139). -/
def orWord (b c : Word) : Word := reduce (b ||| c).toNat

/-- `NOT16(b) mod 32768` (R141), with `NOT16(w) = 65535 - w` (R6). -/
def notWord (b : Word) : Word := reduce (65535 - b.toNat)

/-- `add` (R131). -/
def execAdd (a b c : Operand) (s : State) : Result := execRVV (.add a b c) a b c addWord s

/-- `mult` (R133). -/
def execMult (a b c : Operand) (s : State) : Result := execRVV (.mult a b c) a b c multWord s

/-- `mod` (R135): a resolved divisor of 0 is the fault ArithmeticError, which reports the dividend. -/
def execMod (a b c : Operand) (s : State) : Result :=
  finish (.mod a b c) s do
    let r ← regSlot s 1 a
    let u ← val s 2 b
    let v ← val s 3 c
    if v.toNat = 0 then .error ⟨4, .arithmeticError u⟩ else .ok ((s.setReg r (modWord u v)).advance 3)

/-- `and` (R137). -/
def execAnd (a b c : Operand) (s : State) : Result := execRVV (.and a b c) a b c andWord s

/-- `or` (R139). -/
def execOr (a b c : Operand) (s : State) : Result := execRVV (.or a b c) a b c orWord s

/-- `not` (R141). -/
def execNot (a b : Operand) (s : State) : Result :=
  finish (.not a b) s do
    let r ← regSlot s 1 a
    let v ← val s 2 b
    return (s.setReg r (notWord v)).advance 2

end Sys2Proof.Machine
end

