-- ==== Sys2Proof/Machine/HaltNoop.lean ====
section
/-! DEFINITION. The meanings of `halt` and `noop` (R100 to R103). -/

namespace Sys2Proof.Machine

/-- `halt` (R101). -/
def execHalt (s : State) : Result := finish .halt s (.ok ((s.advance 0).setStatus (.halted .haltInstr)))

/-- `noop` (R103). -/
def execNoop (s : State) : Result := finish .noop s (.ok (s.advance 0))

end Sys2Proof.Machine
end

