-- ==== Sys2Proof/Machine/InOut.lean ====
section
/-! DEFINITION. The meanings of `out` and `in` (R148 to R156). -/

namespace Sys2Proof.Machine

/-- `out` (R150): the low byte of the value is written (decision D8). -/
def execOut (a : Operand) (s : State) : Result :=
  finish (.out a) s do
    let v ← val s 1 a
    return (s.outPut (lowByte v)).advance 1

/-- `in` (R153): the next byte; at end of input the sentinel 0, or the fault EndOfInput where the parameter says so (R154); otherwise
the hold: there is no step until the host acts (R155). -/
def execInp (a : Operand) (s : State) : Result :=
  match regSlot s 1 a with
  | .error e => finish (.inp a) s (.error e)
  | .ok r =>
    match s.inTake with
    | some (b, t) => finish (.inp a) s (.ok ((t.setReg r (zext16 b)).advance 1))
    | none =>
      if s.inEof then
        finish (.inp a) s (if s.params.inEofFatal then .error ⟨2, .endOfInput⟩ else .ok ((s.setReg r 0).advance 1))
      else .fault .heldForInput

end Sys2Proof.Machine
end

