-- ==== Sys2Proof/Machine/Jumps.lean ====
section
/-! DEFINITION. The meanings of `jmp`, `jt`, `jf`, `call` and `ret` (R119 to R129). A target is loaded unchecked; the next fetch faults
if it is 32768 or more (R120). -/

namespace Sys2Proof.Machine

/-- `jmp` (R120). -/
def execJmp (a : Operand) (s : State) : Result :=
  finish (.jmp a) s do
    let target ← val s 1 a
    return s.setPc target

/-- `jt` (R122): the target is fetched and validated whether or not the jump is taken. -/
def execJt (a b : Operand) (s : State) : Result :=
  finish (.jt a b) s do
    let condition ← val s 1 a
    let target ← val s 2 b
    return if isNonzero condition then s.setPc target else s.advance 2

/-- `jf` (R124): as `jt`, the test reversed (R123). -/
def execJf (a b : Operand) (s : State) : Result :=
  finish (.jf a b) s do
    let condition ← val s 1 a
    let target ← val s 2 b
    return if isNonzero condition then s.advance 2 else s.setPc target

/-- `call` (R126): the target is resolved, then the address after the operand word is pushed. -/
def execCall (a : Operand) (s : State) : Result :=
  finish (.call a) s do
    let target ← val s 1 a
    let t ← raiseAt 2 (s.push (s.advance 1).pc)
    return t.setPc target

/-- `ret` (R128): on an empty stack it halts and does not fault (R129, decision D6). -/
def execRet (s : State) : Result :=
  finish .ret s <|
    match s.pop with
    | none => .ok ((s.advance 0).setStatus (.halted .retEmptyStack))
    | some (target, t) => .ok (t.setPc target)

end Sys2Proof.Machine
end

