-- ==== Sys2Proof/Machine/LoadStore.lean ====
section
/-! DEFINITION. The meanings of `rmem` and `wmem` (R142 to R145): one whole word at an absolute address. -/

namespace Sys2Proof.Machine

/-- `rmem` (R143). -/
def execRmem (a b : Operand) (s : State) : Result :=
  finish (.rmem a b) s do
    let r ← regSlot s 1 a
    let addr ← val s 2 b
    let v ← raiseAt 3 (memRead s.mem addr .read)
    return (s.setReg r v).advance 2

/-- `wmem` (R145). -/
def execWmem (a b : Operand) (s : State) : Result :=
  finish (.wmem a b) s do
    let addr ← val s 1 a
    let v ← val s 2 b
    let m ← raiseAt 3 (memWrite s.mem addr v)
    return (s.setMem m).advance 2

end Sys2Proof.Machine
end

