-- ==== Sys2Proof/Machine/SetPushPop.lean ====
section
/-! DEFINITION. The meanings of `set`, `push` and `pop` (R105 to R110). They move whole words and reduce nothing. -/

namespace Sys2Proof.Machine

/-- `set` (R106). -/
def execSet (a b : Operand) (s : State) : Result :=
  finish (.set a b) s do
    let r ← regSlot s 1 a
    let v ← val s 2 b
    return (s.setReg r v).advance 2

/-- `push` (R108). -/
def execPush (a : Operand) (s : State) : Result :=
  finish (.push a) s do
    let v ← val s 1 a
    let t ← raiseAt 2 (s.push v)
    return t.advance 1

/-- `pop` (R110): the operand is checked before the stack is looked at. -/
def execPop (a : Operand) (s : State) : Result :=
  finish (.pop a) s do
    let r ← regSlot s 1 a
    match s.pop with
    | none => .error ⟨2, .stackUnderflow⟩
    | some (v, t) => .ok ((t.setReg r v).advance 1)

end Sys2Proof.Machine
end

