-- ==== Sys2Proof/Machine/Fetch.lean ====
section
/-! DEFINITION. The opcode fetch, the decoding of the words at `pc` (R80 to R82), and placing an instruction where it is fetched. -/

namespace Sys2Proof.Machine

/-- The word `k` past the opcode word. Past the top of memory there is no word and this is 0; no instruction uses that 0, since the
operand's own fetch faults first (State.operandExists). -/
def State.wordAt (s : State) (k : Nat) : Word := s.mem.peek (s.pc.toNat + k)

/-- The opcode `Fetch()` and the dispatch (R80, R81): the instruction at `pc`, or the fault of the opcode fetch (the report then has
no opcode word, R171), or UnknownOpcode after that one fetch. -/
def State.fetchInstr (s : State) : Except (Option Word × Raised) Instr :=
  match memRead s.mem s.pc .fetch with
  | .error c => .error (none, ⟨0, c⟩)
  | .ok op =>
    match decode op (s.wordAt 1) (s.wordAt 2) (s.wordAt 3) with
    | .ok i => .ok i
    | .error _ => .error (some op, ⟨1, .unknownOpcode op⟩)

/-- The state with the four words of a table row stored at `pc`. A core that has ended is set running, and a `pc` that leaves no room
for four words is set to 0, so that the next step runs the instruction. -/
def State.placeInstr (s : State) (nbits w : Nat) : State :=
  let base := if s.pc.toNat + 4 ≤ memWords then s.pc else 0
  { s with
    pc := base
    status := .running
    mem := s.mem.place base.toNat [tableWord nbits w 0, tableWord nbits w 1, tableWord nbits w 2, tableWord nbits w 3] }

end Sys2Proof.Machine
end

