-- ==== Sys2Proof/Machine/Step.lean ====
section
/-! DEFINITION. One step of the core: one whole instruction (R80). -/

namespace Sys2Proof.Machine

/-- `Step()` (R80). A core whose run has ended has no step (R30). -/
def step (s : State) : Host.Outcome State Fault Refusal :=
  match s.status with
  | .halted r => .fault (.runHalted r)
  | .faulted f => .fault (.runFaulted f)
  | .running =>
    match s.fetchInstr with
    | .ok i => exec i s
    | .error e => .next (s.raise e.1 e.2)

/-- `s` with the instruction of `nbits` bits `w` stored where the next step fetches it (log entry 3). -/
def State.withFetchWord (s : State) (nbits w : Nat) : State := s.placeInstr nbits w

end Sys2Proof.Machine
end

