-- ==== Sys2Proof/Machine/Launch.lean ====
section
/-! DEFINITION. What the world outside the core does: the loader before a run (R32, R192, R193) and the host's moves during it (R35).
None of these is a step. -/

namespace Sys2Proof.Machine

/-- The image words of an image file: word `i` is `byte[2i] + 256 * byte[2i+1]` (R41). An odd number of bytes is refused
(R193, U5). -/
def imageOfBytes : List Byte → Option (List Word)
  | [] => some []
  | [_] => none
  | lo :: hi :: rest =>
    match imageOfBytes rest with
    | none => none
    | some ws => some (BitVec.ofNat 16 (lo.toNat + 256 * hi.toNat) :: ws)

/-- LOAD (R32): the image copied verbatim into memory from address 0; the loader writes memory only. An image of more than 32768 words
is refused (R193, D15). -/
def State.load (s : State) (img : List Word) : Option State :=
  if img.length ≤ memWords then some (s.setMem (s.mem.place 0 img)) else none

/-- A launch (R192): reset with the chosen open parameters, then the load. -/
def launch (params : Config) (img : List Word) : Option State :=
  { State.reset with params := params }.load img

/-- The host's only moves during a run (R35, D18). -/
inductive HostMove where
  /-- Appends a byte to `inq`. -/
  | deliver (b : Byte)
  /-- Sets `ineof`. -/
  | endInput
  /-- Takes the oldest byte from the output stream. -/
  | takeOutput
  deriving DecidableEq, Repr

/-- The state after a move of the host; `none` where the host has no such move: it delivers nothing and marks no end after the end
mark (R33), it takes no byte from an empty output. -/
def State.hostMove (s : State) : HostMove → Option State
  | .deliver b => if s.ineof then none else some { s with inq := s.inq ++ [b] }
  | .endInput => if s.ineof then none else some { s with ineof := true }
  | .takeOutput =>
    match s.out with
    | [] => none
    | _ :: rest => some { s with out := rest }

end Sys2Proof.Machine
end

