-- ==== Sys2Proof/Safety.lean ====
section
/-! DEFINITION. The terms in which claims speak of a run: its ends (R196), the hold (R155), which instruction can raise which fault
(R167), and the invariant that every step keeps. -/

namespace Sys2Proof.Machine

/-- A normal end of the run (R196). -/
def State.endedNormally (s : State) : Bool :=
  match s.status with
  | .halted _ => true
  | _ => false

/-- The abnormal end of the run (R196); never counted as correct termination (C9). -/
def State.endedByFault (s : State) : Bool :=
  match s.status with
  | .faulted _ => true
  | _ => false

/-- A safe state: the run has not faulted. -/
def State.safe (s : State) : Bool := !s.endedByFault

/-- The core is held in `in` (R155): running, the next instruction is an `in` with a legal operand, no byte waits and the input has
not ended. -/
def State.held (s : State) : Bool :=
  match s.status, s.fetchInstr with
  | .running, .ok (.inp (.register _)) => s.operandExists 1 && s.inq.isEmpty && !s.ineof
  | _, _ => false

/-- The table of R167, with the fetch faults every instruction can raise: the kinds an instruction with opcode word `op` can raise. -/
def mayRaise (op : Word) : FaultCause → Bool
  | .unknownOpcode w => decide (w = op) && decide (nOpcodes ≤ op.toNat)
  | .invalidRegister _ => decide (op.toNat ∈ [1, 3, 4, 5, 9, 10, 11, 12, 13, 14, 15, 20])
  | .invalidAddress _ => decide (op.toNat ∈ [1, 2, 4, 5, 6, 7, 8, 9, 10, 11, 12, 13, 14, 15, 16, 17, 19])
  | .stackUnderflow => decide (op.toNat = 3)
  | .arithmeticError _ => decide (op.toNat = 11)
  | .addressOutOfRange _ .fetch => decide (op.toNat < nOpcodes) && decide (op.toNat ∉ [0, 18, 21])
  | .addressOutOfRange _ .read => decide (op.toNat = 15)
  | .addressOutOfRange _ .write => decide (op.toNat = 16)
  | .stackOverflow _ => decide (op.toNat = 2 ∨ op.toNat = 17)
  | .endOfInput => decide (op.toNat = 20)

/-- A fault report is one that some instruction can leave (R167, R171): without an opcode word only for the opcode fetch itself, at an
address of 32768 or more. -/
def FaultReport.possible (f : FaultReport) : Bool :=
  match f.op with
  | none => decide (f.cause = .addressOutOfRange f.pc0 .fetch) && decide (memWords ≤ f.pc0.toNat)
  | some op => mayRaise op f.cause

/-- The depth of the stack is within `STACK_CAPACITY` (R5). -/
def State.stackFits (s : State) : Bool :=
  match s.params.stackCapacity with
  | none => true
  | some cap => decide (s.sp ≤ cap)

/-- The status agrees with the rest of the state: `Halted(RetEmptyStack)` has an empty stack (R128), a fault report is possible. -/
def State.statusAgrees (s : State) : Bool :=
  match s.status with
  | .running => true
  | .halted .haltInstr => true
  | .halted .retEmptyStack => s.stack.isEmpty
  | .faulted f => f.possible

/-- The invariant of the machine. Nothing is said of the values of registers, cells and stack entries: each may be any word (R37). -/
def State.Inv (s : State) : Prop :=
  s.mem.wf = true ∧ s.stackFits = true ∧ s.statusAgrees = true

/-- The cause of a fault on an operand that is illegal in its role (R83, R84). -/
def Role.faultCause : Role → Operand → FaultCause
  | .regSlot, o => .invalidRegister o.word
  | .value, o => .invalidAddress o.word

/-- The operand faults of an instruction (R86, R162, R163): the first operand that is illegal in its role, if its word lies in memory,
is reported after it is fetched, whatever comes later. -/
def OperandFaults (i : Instr) (s : State) : Prop :=
  ∀ (before after : List (Role × Operand)) (role : Role) (o : Operand), i.operands = before ++ (role, o) :: after →
    (∀ p ∈ before, p.1.accepts p.2 = true) → role.accepts o = false → s.operandExists (before.length + 1) = true →
    exec i s = .next (s.raise (some i.opcode) ⟨before.length + 2, Role.faultCause role o⟩)

/-- No register differs. -/
def SameRegs (s t : State) : Prop := ∀ j : RegIdx, t.reg j = s.reg j

/-- No cell of memory differs. -/
def SameCells (s t : State) : Prop := ∀ addr : Nat, t.mem.peek addr = s.mem.peek addr

/-- The parameters and the streams are the same. -/
def SameStreams (s t : State) : Prop := t.params = s.params ∧ t.inq = s.inq ∧ t.ineof = s.ineof ∧ t.out = s.out

/-- The status is the same, or a fault was taken. -/
def StatusKept (s t : State) : Prop := t.status = s.status ∨ ∃ f, t.status = .faulted f

/-- Pushes in the order of the list (R29). -/
def State.pushAll (s : State) : List Word → Except FaultCause State
  | [] => .ok s
  | v :: vs =>
    match s.push v with
    | .ok t => t.pushAll vs
    | .error c => .error c

/-- The words of `n` pops, the first popped first, and the state after them; `none` if the stack runs empty (R29). -/
def State.popMany (s : State) : Nat → Option (List Word × State)
  | 0 => some ([], s)
  | n + 1 =>
    match s.pop with
    | none => none
    | some (v, t) =>
      match t.popMany n with
      | none => none
      | some (vs, u) => some (v :: vs, u)

/-- A run (R196) with the host's moves in it (R35): `t` is reached from `s` by steps and moves, in any order. A held core is passed by a
move of the host only. -/
inductive Run (s : State) : State → Prop where
  | start : Run s s
  | step (t u : State) (run : Run s t) (hs : step t = .next u) : Run s u
  | host (t u : State) (move : HostMove) (run : Run s t) (hm : t.hostMove move = some u) : Run s u

/-- `t` is reached from `s` by steps whose states, `s` and `t` among them, all satisfy `P`. -/
inductive StepsThrough (P : State → Prop) (s : State) : State → Prop where
  | refl (h : P s) : StepsThrough P s s
  | tail (t u : State) (run : StepsThrough P s t) (hs : step t = .next u) (h : P u) : StepsThrough P s u

end Sys2Proof.Machine
end

