-- ==== Sys2Proof/Certificates/Slice0/Obligations.lean ====
section
/-! DEFINITION. The statements for the provers, from the numbered rules of the spec. -/

open Sys2Proof Sys2Proof.Machine

/-! ## Encoding -/

/-- Encode, then decode (R60 to R66): every instruction whose operands are classes of words is read back, and nothing of what
follows it is taken. -/
def Obligations.EncodeThenDecodeGivesBack : Prop :=
  ∀ (i : Instr) (rest : List Word), i.canonical = true → decodeWords (encode i ++ rest) = .ok (i, rest)

/-- Decode, then encode (R60, R69): the words read are exactly the encoding of the instruction read, so an instruction has one
encoding. -/
def Obligations.DecodeThenEncodeGivesBack : Prop :=
  ∀ (ws : List Word) (i : Instr) (rest : List Word),
    decodeWords ws = .ok (i, rest) → encode i ++ rest = ws ∧ i.canonical = true

/-- The opcode words 22 to 65535, and no others, are refused as unknown, whatever words follow (R62, R65, R67). -/
def Obligations.UnknownOpcodeExactlyFrom22 : Prop :=
  ∀ (op : Word) (rest : List Word), decodeWords (op :: rest) = .error (.unknownOpcode op) ↔ 22 ≤ op.toNat

/-- Words written out from R66 decode to the instructions they stand for. -/
def Obligations.SpecWordsDecode : Prop :=
  decodeWords [0] = .ok (.halt, []) ∧
  decodeWords [1, 32771, 1234] = .ok (.set (.register 3) (.literal 1234), []) ∧
  decodeWords [3, 32769] = .ok (.pop (.register 1), []) ∧
  decodeWords [5, 32770, 32767, 32771] = .ok (.gt (.register 2) (.literal 32767) (.register 3), []) ∧
  decodeWords [7, 32768, 50] = .ok (.jt (.register 0) (.literal 50), []) ∧
  decodeWords [9, 32768, 32769, 4] = .ok (.add (.register 0) (.register 1) (.literal 4), []) ∧
  decodeWords [16, 32769, 32770] = .ok (.wmem (.register 1) (.register 2), []) ∧
  decodeWords [20, 32775] = .ok (.inp (.register 7), []) ∧
  decodeWords [2, 65535] = .ok (.push (.invalid 65535), [])

/-- The three classes of an operand word, the register it names as a register slot, and its value as a value operand (R63, R83, R84). That
a register's content is the value whole, unreduced, and is not resolved again are the spec's own decisions D2 and D3 (log entry 11). -/
def Obligations.OperandWordResolves : Prop :=
  ∀ (s : State) (w : Word),
    (w.toNat < 32768 → regOf (classify w) = none ∧ s.valueOf (classify w) = some w) ∧
    (∀ k : RegIdx, w.toNat = 32768 + k.val → regOf (classify w) = some k ∧ s.valueOf (classify w) = some (s.reg k)) ∧
    (32776 ≤ w.toNat → regOf (classify w) = none ∧ s.valueOf (classify w) = none) ∧
    (classify w).word = w

/-! ## The step -/

/-- When the words at `pc` decode to an instruction, the step of a running core is that instruction's meaning, in the state in which
the step began (R80). Each meaning moves `pc` itself. -/
def Obligations.StepRunsDecodedInstr : Prop :=
  ∀ (s : State) (i : Instr), s.status = .running → s.pc.toNat < 32768 →
    decode (s.mem.peek s.pc.toNat) (s.mem.peek (s.pc.toNat + 1)) (s.mem.peek (s.pc.toNat + 2)) (s.mem.peek (s.pc.toNat + 3)) = .ok i →
    step s = exec i s

/-- A core whose run has ended has no step, and stays ended: "the core takes no further step" (R30, R80, R173). The names of the two
answers are the model's. -/
def Obligations.EndedCoreHasNoStep : Prop :=
  ∀ s : State, (∀ r, s.status = .halted r → step s = .fault (.runHalted r)) ∧
    (∀ f, s.status = .faulted f → step s = .fault (.runFaulted f))

/-- "A step is enabled whenever `status = Running`, with one exception" (R80): a running core has a next state, no word being without a
meaning (R89), or is held in `in`, and has one exactly when it is not held. The name of the answer in the hold is the model's (log
entry 2). -/
def Obligations.RunningCoreStepsUnlessHeld : Prop :=
  ∀ s : State, s.status = .running →
    (s.held = false → ∃ t, step s = .next t) ∧ (s.held = true → step s = .fault .heldForInput)

/-- "Once it is not `Running` the core takes no further step and no state changes again" (R30): whatever the host does to the streams
of a core whose run has ended, its own state stays. -/
def Obligations.EndedRunChangesNothing : Prop :=
  ∀ s t : State, s.status ≠ .running → Run s t →
    t.regs = s.regs ∧ t.pc = s.pc ∧ t.mem = s.mem ∧ t.stack = s.stack ∧ t.status = s.status

/-- UnknownOpcode is raised after the opcode fetch and before any operand fetch, for the opcode words from 22 on, and no defined
opcode raises it (R81, R161). -/
def Obligations.UnknownOpcodeFaults : Prop :=
  (∀ s : State, s.status = .running → s.pc.toNat < 32768 → 22 ≤ (s.mem.peek s.pc.toNat).toNat →
    step s = .next { s with
      pc := s.pc + 1
      status := .faulted ⟨.unknownOpcode (s.mem.peek s.pc.toNat), s.pc, some (s.mem.peek s.pc.toNat)⟩ }) ∧
  (∀ (s t : State) (f : FaultReport) (w : Word), step s = .next t → t.status = .faulted f → f.cause = .unknownOpcode w →
    w = s.mem.peek s.pc.toNat ∧ 22 ≤ w.toNat)

/-- An opcode fetch at an address of 32768 or more faults, leaves `pc`, and has no opcode word to report (R82, R166, R171): the
spec's own decision D4 (log entry 11). -/
def Obligations.OpcodeFetchPastTopFaults : Prop :=
  ∀ s : State, s.status = .running → 32768 ≤ s.pc.toNat →
    step s = .next { s with status := .faulted ⟨.addressOutOfRange s.pc .fetch, s.pc, none⟩ }

/-- An instruction whose words would extend past address 32767 faults at the first word that does not exist, if the operands before it
are legal; its words do not wrap to address 0 (R82, decision D4). -/
def Obligations.TruncatedInstrFaults : Prop :=
  ∀ (s : State) (i : Instr) (k : Nat), s.status = .running → s.fetchInstr = .ok i → 1 ≤ k → k ≤ i.operands.length →
    s.pc.toNat + k = 32768 → (∀ p ∈ i.operands.take (k - 1), p.1.accepts p.2 = true) →
    step s = .next { s with
      pc := 32768
      status := .faulted ⟨.addressOutOfRange 32768 .fetch, s.pc, some i.opcode⟩ }

/-- For every instruction: the first operand that is illegal in its role is the one reported, with its raw word, and the later words
are not fetched; an operand before it whose word does not exist is reported instead (R86, R162, R163, R168). The order and
the fault of a missing word are the spec's own decisions D5 and D4 (log entry 11). -/
def Obligations.FirstIllegalOperandReported : Prop :=
  ∀ (i : Instr) (s : State), OperandFaults i s ∧
    ∀ (before after : List (Role × Operand)) (p : Role × Operand), i.operands = before ++ p :: after →
      (∀ q ∈ before, q.1.accepts q.2 = true) → (∀ k, 1 ≤ k → k ≤ before.length → s.operandExists k = true) →
      s.operandExists (before.length + 1) = false →
      exec i s = .next (s.raise (some i.opcode)
        ⟨before.length + 1, .addressOutOfRange (s.pc + BitVec.ofNat 16 (before.length + 1)) .fetch⟩)

/-! ## What each instruction does: its words, its operand faults (R162, R163), its effect -/

/-- `halt` ends the run normally with `pc = pc0 + 1` and has no further step (R101); `noop` only advances (R103). -/
def Obligations.HaltEndsAndNoopAdvances : Prop :=
  encode .halt = [0] ∧ encode .noop = [21] ∧
  ∀ s : State,
    exec .halt s = .next { s with pc := s.pc + 1, status := .halted .haltInstr } ∧
    (∀ u, step { s with pc := s.pc + 1, status := .halted .haltInstr } ≠ .next u) ∧
    exec .noop s = .next { s with pc := s.pc + 1 }

/-- `set` (R106). That a word of 32768 or more is copied whole is the spec's own decision D2 (R105, log entry 11). -/
def Obligations.SetCopiesValue : Prop :=
  ∀ (s : State) (a b : Operand),
    encode (.set a b) = [1, a.word, b.word] ∧ OperandFaults (.set a b) s ∧
    ∀ (r : RegIdx) (v : Word), a = .register r → s.valueOf b = some v → s.operandExists 2 = true →
      exec (.set a b) s = .next { s with regs := s.regs.set r v, pc := s.pc + 3 }

/-- `push` (R108, R27). The capacity and the fault StackOverflow are the spec's own decision D11, and that a word of 32768 or more is
pushed whole is its decision D2 (R105, log entry 11). -/
def Obligations.PushAppendsValue : Prop :=
  ∀ (s : State) (a : Operand),
    encode (.push a) = [2, a.word] ∧ OperandFaults (.push a) s ∧
    ∀ v : Word, s.valueOf a = some v → s.operandExists 1 = true →
      (s.params.stackCapacity ≠ some s.stack.length →
        exec (.push a) s = .next { s with stack := s.stack ++ [v], pc := s.pc + 2 }) ∧
      (s.params.stackCapacity = some s.stack.length →
        exec (.push a) s = .next (s.raise (some 2) ⟨2, .stackOverflow v⟩))

/-- `pop` (R110, R28). That a word of 32768 or more is written whole is the spec's own decision D2 (R105, log entry 11). -/
def Obligations.PopTakesTop : Prop :=
  ∀ (s : State) (a : Operand),
    encode (.pop a) = [3, a.word] ∧ OperandFaults (.pop a) s ∧
    ∀ r : RegIdx, a = .register r → s.operandExists 1 = true →
      (∀ (rest : List Word) (v : Word), s.stack = rest ++ [v] →
        exec (.pop a) s = .next { s with regs := s.regs.set r v, stack := rest, pc := s.pc + 2 }) ∧
      (s.stack = [] → exec (.pop a) s = .next (s.raise (some 3) ⟨2, .stackUnderflow⟩))

/-- `eq` and `gt` compare unsigned (R114, R116). That they compare the full 16 bits, unreduced, is the spec's own decision D2 (R113, log
entry 11). -/
def Obligations.CompareWritesTruth : Prop :=
  ∀ (s : State) (a b c : Operand),
    encode (.eq a b c) = [4, a.word, b.word, c.word] ∧ encode (.gt a b c) = [5, a.word, b.word, c.word] ∧
    OperandFaults (.eq a b c) s ∧ OperandFaults (.gt a b c) s ∧
    ∀ (r : RegIdx) (u v : Word), a = .register r → s.valueOf b = some u → s.valueOf c = some v → s.operandExists 3 = true →
      exec (.eq a b c) s = .next { s with regs := s.regs.set r (if u = v then 1 else 0), pc := s.pc + 4 } ∧
      exec (.gt a b c) s = .next { s with regs := s.regs.set r (if v < u then 1 else 0), pc := s.pc + 4 }

/-- `jmp` loads its target unchecked; a target of 32768 or more makes the next step fault at its fetch (R120), which is the
spec's own decision D4 (log entry 11). -/
def Obligations.JmpLoadsTarget : Prop :=
  ∀ (s : State) (a : Operand),
    encode (.jmp a) = [6, a.word] ∧ OperandFaults (.jmp a) s ∧
    ∀ v : Word, s.valueOf a = some v → s.operandExists 1 = true →
      exec (.jmp a) s = .next { s with pc := v } ∧
      (32768 ≤ v.toNat → s.status = .running →
        step { s with pc := v } =
          .next { s with pc := v, status := .faulted ⟨.addressOutOfRange v .fetch, v, none⟩ })

/-- `jt` jumps on any word but 0, `jf` on 0 only; an untaken jump goes to `pc0 + 3`, its target resolved all the same (R122, R124).
That the target is not reduced before it is resolved is the spec's own decision D7 (R123), that it is validated when the jump is not
taken its decision D5 (R86, log entry 11). -/
def Obligations.ConditionalJumps : Prop :=
  ∀ (s : State) (a b : Operand),
    encode (.jt a b) = [7, a.word, b.word] ∧ encode (.jf a b) = [8, a.word, b.word] ∧
    OperandFaults (.jt a b) s ∧ OperandFaults (.jf a b) s ∧
    ∀ u v : Word, s.valueOf a = some u → s.valueOf b = some v → s.operandExists 2 = true →
      exec (.jt a b) s = .next { s with pc := if u = 0 then s.pc + 3 else v } ∧
      exec (.jf a b) s = .next { s with pc := if u = 0 then v else s.pc + 3 }

/-- `call` pushes the address after its operand word and jumps (R126). The capacity and the fault StackOverflow are the spec's own
decision D11 (R27, log entry 11). -/
def Obligations.CallPushesReturnAddress : Prop :=
  ∀ (s : State) (a : Operand),
    encode (.call a) = [17, a.word] ∧ OperandFaults (.call a) s ∧
    ∀ v : Word, s.valueOf a = some v → s.operandExists 1 = true →
      (s.params.stackCapacity ≠ some s.stack.length →
        exec (.call a) s = .next { s with stack := s.stack ++ [s.pc + 2], pc := v }) ∧
      (s.params.stackCapacity = some s.stack.length →
        exec (.call a) s = .next (s.raise (some 17) ⟨2, .stackOverflow (s.pc + 2)⟩))

/-- `ret` jumps to the word on top; on an empty stack it halts and does not fault (R128), which is the spec's own decision D6 (R129, log
entry 11). -/
def Obligations.RetPopsOrHalts : Prop :=
  encode .ret = [18] ∧
  ∀ s : State,
    (∀ (rest : List Word) (v : Word), s.stack = rest ++ [v] → exec .ret s = .next { s with stack := rest, pc := v }) ∧
    (s.stack = [] → exec .ret s = .next { s with pc := s.pc + 1, status := .halted .retEmptyStack } ∧
      ∀ u, step { s with pc := s.pc + 1, status := .halted .retEmptyStack } ≠ .next u)

/-- `add` and `mult`: the exact sum and product, reduced modulo 32768 (R131, R133). -/
def Obligations.AddMultModulo : Prop :=
  ∀ (s : State) (a b c : Operand),
    encode (.add a b c) = [9, a.word, b.word, c.word] ∧ encode (.mult a b c) = [10, a.word, b.word, c.word] ∧
    OperandFaults (.add a b c) s ∧ OperandFaults (.mult a b c) s ∧
    ∀ (r : RegIdx) (u v : Word), a = .register r → s.valueOf b = some u → s.valueOf c = some v → s.operandExists 3 = true →
      exec (.add a b c) s =
        .next { s with regs := s.regs.set r (BitVec.ofNat 16 ((u.toNat + v.toNat) % 32768)), pc := s.pc + 4 } ∧
      exec (.mult a b c) s =
        .next { s with regs := s.regs.set r (BitVec.ofNat 16 ((u.toNat * v.toNat) % 32768)), pc := s.pc + 4 }

/-- `mod`: the remainder of the unreduced operands, then reduced; a zero divisor is the fault ArithmeticError, which reports the
dividend (R135). That the
operands are not reduced beforehand is the spec's own decision D2 (R130, log entry 11). -/
def Obligations.ModRemainderOrFault : Prop :=
  ∀ (s : State) (a b c : Operand),
    encode (.mod a b c) = [11, a.word, b.word, c.word] ∧ OperandFaults (.mod a b c) s ∧
    ∀ (r : RegIdx) (u v : Word), a = .register r → s.valueOf b = some u → s.valueOf c = some v → s.operandExists 3 = true →
      (v ≠ 0 →
        exec (.mod a b c) s =
          .next { s with regs := s.regs.set r (BitVec.ofNat 16 ((u.toNat % v.toNat) % 32768)), pc := s.pc + 4 }) ∧
      (v = 0 → exec (.mod a b c) s = .next (s.raise (some 11) ⟨4, .arithmeticError u⟩))

/-- `and` and `or`: bit by bit on bits 14 to 0, and bit 15 of the result is 0 (R137, R139). -/
def Obligations.AndOrBitwise : Prop :=
  ∀ (s : State) (a b c : Operand),
    encode (.and a b c) = [12, a.word, b.word, c.word] ∧ encode (.or a b c) = [13, a.word, b.word, c.word] ∧
    OperandFaults (.and a b c) s ∧ OperandFaults (.or a b c) s ∧
    ∀ (r : RegIdx) (u v : Word), a = .register r → s.valueOf b = some u → s.valueOf c = some v → s.operandExists 3 = true →
      exec (.and a b c) s = .next { s with regs := s.regs.set r ((u &&& v) &&& 32767), pc := s.pc + 4 } ∧
      exec (.or a b c) s = .next { s with regs := s.regs.set r ((u ||| v) &&& 32767), pc := s.pc + 4 }

/-- `not`: `32767 - (b mod 32768)`, that is, bits 14 to 0 inverted (R141). -/
def Obligations.NotComplements : Prop :=
  ∀ (s : State) (a b : Operand),
    encode (.not a b) = [14, a.word, b.word] ∧ OperandFaults (.not a b) s ∧
    ∀ (r : RegIdx) (v : Word), a = .register r → s.valueOf b = some v → s.operandExists 2 = true →
      exec (.not a b) s =
        .next { s with regs := s.regs.set r (BitVec.ofNat 16 (32767 - v.toNat % 32768)), pc := s.pc + 3 }

/-- `rmem`: the whole word of the cell (R143), or AddressOutOfRange for a resolved address of 32768 or more, which is the spec's own
decision D4 (R42, R142); that the word is loaded whole, whatever it is, is its decision D2 (R22, log entry 11). -/
def Obligations.RmemLoadsCell : Prop :=
  ∀ (s : State) (a b : Operand),
    encode (.rmem a b) = [15, a.word, b.word] ∧ OperandFaults (.rmem a b) s ∧
    ∀ (r : RegIdx) (addr : Word), a = .register r → s.valueOf b = some addr → s.operandExists 2 = true →
      (addr.toNat < 32768 →
        exec (.rmem a b) s = .next { s with regs := s.regs.set r (s.mem.peek addr.toNat), pc := s.pc + 3 }) ∧
      (32768 ≤ addr.toNat →
        exec (.rmem a b) s = .next (s.raise (some 15) ⟨3, .addressOutOfRange addr .read⟩))

/-- `wmem`: the whole word is stored in the one cell (R145), or AddressOutOfRange for a resolved address of 32768 or more, which is the
spec's own decision D4 (R43, R142); that the word is stored whole, whatever it is, is its decision D2 (R25, log entry 11). -/
def Obligations.WmemStoresCell : Prop :=
  ∀ (s : State) (a b : Operand), s.mem.wf = true →
    encode (.wmem a b) = [16, a.word, b.word] ∧ OperandFaults (.wmem a b) s ∧
    ∀ addr v : Word, s.valueOf a = some addr → s.valueOf b = some v → s.operandExists 2 = true →
      (addr.toNat < 32768 → ∃ m : Memory,
        exec (.wmem a b) s = .next { s with mem := m, pc := s.pc + 3 } ∧ m.wf = true ∧
        ∀ x : Nat, m.peek x = if x = addr.toNat then v else s.mem.peek x) ∧
      (32768 ≤ addr.toNat →
        exec (.wmem a b) s = .next (s.raise (some 16) ⟨3, .addressOutOfRange addr .write⟩))

/-- `out` appends the low byte of its value to the output (R150). For a value above 255 that is the spec's own decision D8 (log entry
11). -/
def Obligations.OutAppendsLowByte : Prop :=
  ∀ (s : State) (a : Operand),
    encode (.out a) = [19, a.word] ∧ OperandFaults (.out a) s ∧
    ∀ v : Word, s.valueOf a = some v → s.operandExists 1 = true →
      exec (.out a) s = .next { s with out := s.out ++ [BitVec.ofNat 8 (v.toNat % 256)], pc := s.pc + 2 }

/-- `in` takes the oldest byte, zero-extended; at end of input it writes the sentinel 0, or faults where the parameter says so (R153,
R154, the spec's decision D9); otherwise it has no step (R155), the name of the answer being the model's (log entry 2). -/
def Obligations.InTakesOldestByte : Prop :=
  ∀ (s : State) (a : Operand),
    encode (.inp a) = [20, a.word] ∧ OperandFaults (.inp a) s ∧
    ∀ r : RegIdx, a = .register r → s.operandExists 1 = true →
      (∀ (b : Byte) (rest : List Byte), s.inq = b :: rest →
        exec (.inp a) s = .next { s with regs := s.regs.set r (BitVec.ofNat 16 b.toNat), inq := rest, pc := s.pc + 2 }) ∧
      (s.inq = [] → s.ineof = true → s.params.inEofFatal = false →
        exec (.inp a) s = .next { s with regs := s.regs.set r 0, pc := s.pc + 2 }) ∧
      (s.inq = [] → s.ineof = true → s.params.inEofFatal = true →
        exec (.inp a) s = .next (s.raise (some 20) ⟨2, .endOfInput⟩)) ∧
      (s.inq = [] → s.ineof = false → exec (.inp a) s = .fault .heldForInput)

/-- A held core has no step, and a move of the host lifts the hold: the same `in` then takes the delivered byte, or the sentinel after
the end mark, or faults on it where the parameter says so (R155, the spec's decisions D9 and D10). The name of the answer in the hold
is the model's (log entry 2). -/
def Obligations.HoldIsLiftedByHost : Prop :=
  ∀ s : State, s.held = true → (∀ t, step s ≠ .next t) ∧ step s = .fault .heldForInput ∧
    ∃ r : RegIdx, s.fetchInstr = .ok (.inp (.register r)) ∧
      (∀ b : Byte, ∃ t, s.hostMove (.deliver b) = some t ∧
        step t = .next { s with regs := s.regs.set r (BitVec.ofNat 16 b.toNat), pc := s.pc + 2 }) ∧
      ∃ t, s.hostMove .endInput = some t ∧
        (s.params.inEofFatal = false → step t = .next { s with regs := s.regs.set r 0, ineof := true, pc := s.pc + 2 }) ∧
        (s.params.inEofFatal = true → step t = .next (t.raise (some 20) ⟨2, .endOfInput⟩))

/-! ## Frames -/

/-- The instructions that write a register from operands or memory change no other register, no cell, no stack entry, no stream. -/
def Obligations.RegisterWritersFrame : Prop :=
  ∀ (s t : State) (a b c : Operand) (i : Instr),
    i ∈ [Instr.set a b, .eq a b c, .gt a b c, .add a b c, .mult a b c, .mod a b c, .and a b c, .or a b c, .not a b, .rmem a b] →
    exec i s = .next t →
    (∀ j : RegIdx, a ≠ .register j → t.reg j = s.reg j) ∧ SameCells s t ∧ t.stack = s.stack ∧ SameStreams s t ∧ StatusKept s t

/-- `push` and `call` change no register, no cell, no stream, and no entry already on the stack. -/
def Obligations.PushCallFrame : Prop :=
  ∀ (s t : State) (a : Operand) (i : Instr), i ∈ [Instr.push a, .call a] → exec i s = .next t →
    SameRegs s t ∧ SameCells s t ∧ SameStreams s t ∧ StatusKept s t ∧ t.stack.take s.sp = s.stack ∧ t.sp ≤ s.sp + 1

/-- `pop` changes no register but its destination, `ret` none; neither changes a cell, a stream or an entry below the top. -/
def Obligations.PopRetFrame : Prop :=
  ∀ s t : State,
    (∀ a : Operand, exec (.pop a) s = .next t →
      (∀ j : RegIdx, a ≠ .register j → t.reg j = s.reg j) ∧ SameCells s t ∧ SameStreams s t ∧ StatusKept s t ∧
      (t.stack = s.stack ∨ t.stack = s.stack.dropLast)) ∧
    (exec .ret s = .next t →
      SameRegs s t ∧ SameCells s t ∧ SameStreams s t ∧ t.stack = s.stack.dropLast ∧
      (t.status = s.status ∨ (s.stack = [] ∧ t.status = .halted .retEmptyStack)))

/-- `jmp`, `jt`, `jf`, `noop` and `halt` change `pc` and the status only. -/
def Obligations.JumpHaltNoopFrame : Prop :=
  ∀ (s t : State) (a b : Operand),
    (∀ i ∈ [Instr.jmp a, .jt a b, .jf a b, .noop], exec i s = .next t →
      SameRegs s t ∧ SameCells s t ∧ t.stack = s.stack ∧ SameStreams s t ∧ StatusKept s t) ∧
    (exec .halt s = .next t →
      SameRegs s t ∧ SameCells s t ∧ t.stack = s.stack ∧ SameStreams s t ∧ t.status = .halted .haltInstr)

/-- `wmem` changes no cell but the one at the resolved value of its operand `a`, no register, no stack entry, no stream; a form whose
`a` has no value stores nothing. -/
def Obligations.WmemFrame : Prop :=
  ∀ (s t : State) (a b : Operand), s.mem.wf = true → exec (.wmem a b) s = .next t →
    SameRegs s t ∧ t.stack = s.stack ∧ SameStreams s t ∧ StatusKept s t ∧
    (∀ addr : Word, s.valueOf a = some addr → ∀ x : Nat, x ≠ addr.toNat → t.mem.peek x = s.mem.peek x) ∧
    (s.valueOf a = none → SameCells s t)

/-- `out` changes the output only, `in` its destination and the input queue only. -/
def Obligations.InOutFrame : Prop :=
  ∀ (s t : State) (a : Operand),
    (exec (.out a) s = .next t →
      SameRegs s t ∧ SameCells s t ∧ t.stack = s.stack ∧ StatusKept s t ∧ t.params = s.params ∧ t.inq = s.inq ∧ t.ineof = s.ineof ∧
      (t.out = s.out ∨ ∃ b, t.out = s.out ++ [b])) ∧
    (exec (.inp a) s = .next t →
      (∀ j : RegIdx, a ≠ .register j → t.reg j = s.reg j) ∧ SameCells s t ∧ t.stack = s.stack ∧ StatusKept s t ∧
      t.params = s.params ∧ t.ineof = s.ineof ∧ t.out = s.out ∧ (t.inq = s.inq ∨ ∃ b, s.inq = b :: t.inq))

/-! ## The whole machine -/

/-- A register is written only by an instruction whose register-slot operand names it (R22). -/
def Obligations.RegisterWrittenOnlyByItsName : Prop :=
  ∀ (s t : State) (j : RegIdx), step s = .next t → t.reg j ≠ s.reg j →
    ∃ i, s.fetchInstr = .ok i ∧ i.operands.head? = some (.regSlot, .register j)

/-- A cell is written only by `wmem`, and only at its resolved address (R25, R45). -/
def Obligations.CellWrittenOnlyByWmem : Prop :=
  ∀ (s t : State) (x : Nat), s.mem.wf = true → step s = .next t → t.mem.peek x ≠ s.mem.peek x →
    ∃ (a b : Operand) (addr v : Word), s.fetchInstr = .ok (.wmem a b) ∧ s.valueOf a = some addr ∧ s.valueOf b = some v ∧
      x = addr.toNat ∧ t.mem.peek x = v

/-- The stack changes by one entry at its top: `push` and `call` add one, `pop` and `ret` remove one, nothing else touches it
(R26, R29). -/
def Obligations.StackMovesOnlyAtTop : Prop :=
  ∀ s t : State, step s = .next t →
    t.stack = s.stack ∨
    (∃ v a, t.stack = s.stack ++ [v] ∧ (s.fetchInstr = .ok (.push a) ∨ s.fetchInstr = .ok (.call a))) ∨
    (∃ v, s.stack = t.stack ++ [v] ∧ ((∃ a, s.fetchInstr = .ok (.pop a)) ∨ s.fetchInstr = .ok .ret))

/-- The streams are reached by `in` and `out` only, one byte at a time; no step changes the end mark or a parameter (R33, R34, R148). -/
def Obligations.StreamsOnlyByInOut : Prop :=
  ∀ s t : State, step s = .next t →
    (t.out = s.out ∨ ∃ b a, t.out = s.out ++ [b] ∧ s.fetchInstr = .ok (.out a)) ∧
    (t.inq = s.inq ∨ ∃ b a, s.inq = b :: t.inq ∧ s.fetchInstr = .ok (.inp a)) ∧
    t.ineof = s.ineof ∧ t.params = s.params

/-- The core cannot read the output back (R34): with any other output in its place, the step is the same and appends the same bytes. -/
def Obligations.OutputNeverReadBack : Prop :=
  ∀ s t : State, step s = .next t →
    ∃ bytes : List Byte, t.out = s.out ++ bytes ∧ ∀ o : List Byte, step { s with out := o } = .next { t with out := o ++ bytes }

/-- The timing of the host's deliveries changes only when the core is held, never what it computes (R197): where the core has a
step (so it is not held), delivering a byte and taking the step commute. -/
def Obligations.DeliveryCommutesWithStep : Prop :=
  ∀ (s s' t : State) (b : Byte), step s = .next t → s.hostMove (.deliver b) = some s' →
    ∃ t', t.hostMove (.deliver b) = some t' ∧ step s' = .next t'

/-- The status leaves `Running` in three ways only: `halt`, `ret` on an empty stack, a fault (R30, R196). -/
def Obligations.RunEndsInThreeWays : Prop :=
  ∀ s t : State, step s = .next t →
    t.status = .running ∨
    (t.status = .halted .haltInstr ∧ s.fetchInstr = .ok .halt) ∨
    (t.status = .halted .retEmptyStack ∧ s.fetchInstr = .ok .ret ∧ s.stack = []) ∨
    ∃ f, t.status = .faulted f

/-- Fault entry (R170): a faulting step changes nothing but `pc` and the status; the report names the address of the opcode word and
that word; `pc` is past the words fetched, at most four, and none if the opcode fetch itself faulted. -/
def Obligations.FaultsArePrecise : Prop :=
  ∀ (s t : State) (f : FaultReport), step s = .next t → t.status = .faulted f →
    t = { s with pc := t.pc, status := .faulted f } ∧ f.pc0 = s.pc ∧
    ((f.op = none ∧ 32768 ≤ s.pc.toNat ∧ t.pc = s.pc) ∨
     (f.op = some (s.mem.peek s.pc.toNat) ∧ s.pc.toNat < 32768 ∧
      ∃ n : Nat, 1 ≤ n ∧ n ≤ 4 ∧ t.pc = s.pc + BitVec.ofNat 16 n))

/-- Which instruction can raise what (R167): the fault of a step is one its opcode word can raise. -/
def Obligations.FaultKindsFollowTable : Prop :=
  ∀ (s t : State) (f : FaultReport), step s = .next t → t.status = .faulted f →
    (f.op = none → f.cause = .addressOutOfRange s.pc .fetch ∧ 32768 ≤ s.pc.toNat) ∧
    (∀ op, f.op = some op → op = s.mem.peek s.pc.toNat ∧ mayRaise op f.cause = true)

/-- The instructions that compute leave a word below 32768 in their destination, and `in` one below 256 (R37 (e)). -/
def Obligations.ComputedWordsAreBelow32768 : Prop :=
  ∀ (s t : State) (r : RegIdx) (b c : Operand), t.status = .running →
    (∀ i ∈ [Instr.eq (.register r) b c, .gt (.register r) b c, .add (.register r) b c, .mult (.register r) b c,
        .mod (.register r) b c, .and (.register r) b c, .or (.register r) b c, .not (.register r) b],
      exec i s = .next t → (t.reg r).toNat < 32768) ∧
    (exec (.inp (.register r)) s = .next t → (t.reg r).toNat < 256)

/-- `not` applied twice to a register gives its original content modulo 32768 (R141). -/
def Obligations.NotTwiceRestores : Prop :=
  ∀ (s : State) (r : RegIdx), s.pc.toNat + 5 < 32768 →
    ∃ t u, exec (.not (.register r) (.register r)) s = .next t ∧ exec (.not (.register r) (.register r)) t = .next u ∧
      u.reg r = BitVec.ofNat 16 ((s.reg r).toNat % 32768) ∧ (∀ j, j ≠ r → u.reg j = s.reg j)

/-- A store is seen by the very next fetch (R52): a `wmem` into the next opcode word makes the next step execute the word stored, as
an instruction or as an unknown opcode. -/
def Obligations.StoreSeenByNextFetch : Prop :=
  ∀ (s : State) (a b : Operand) (addr v : Word), s.mem.wf = true → s.status = .running → s.fetchInstr = .ok (.wmem a b) →
    s.valueOf a = some addr → s.valueOf b = some v → addr.toNat = s.pc.toNat + 3 → addr.toNat < 32768 →
    ∃ t, step s = .next t ∧ t.pc = addr ∧ t.status = .running ∧
      (∀ i, decode v (t.wordAt 1) (t.wordAt 2) (t.wordAt 3) = .ok i → step t = exec i t) ∧
      (22 ≤ v.toNat → step t = .next (t.raise (some v) ⟨1, .unknownOpcode v⟩))

/-- `call` then `ret` returns to the address after the operand of the `call` (R127): a `ret` executed at the depth the `call` left,
with the return address never popped in between, sets `pc = pc0 + 2` and leaves the depth the `call` found. -/
def Obligations.CallThenRetReturns : Prop :=
  ∀ (s s1 s2 : State) (a : Operand), s.fetchInstr = .ok (.call a) → step s = .next s1 →
    StepsThrough (fun u => s.sp + 1 ≤ u.sp) s1 s2 →
    s2.status = .running → s2.fetchInstr = .ok .ret → s2.sp = s.sp + 1 →
    ∃ t, step s2 = .next t ∧ t.pc = s.pc + 2 ∧ t.sp = s.sp ∧ t.status = .running

/-- The stack law (R29): after pushes, as many pops give the words in reverse order and the state as it was; one more than pushed on an
empty stack is an underflow. -/
def Obligations.StackIsLastInFirstOut : Prop :=
  ∀ (s : State) (vs : List Word), s.params.stackCapacity = none →
    ∃ t, s.pushAll vs = .ok t ∧ t.popMany vs.length = some (vs.reverse, s) ∧ (s.stack = [] → t.popMany (vs.length + 1) = none)

/-! ## Memory -/

/-- The access primitives (R42, R43): a write then a read of any cell, and the fault of either at an address of 32768 or more, which is
the spec's own decision D4 (log entry 11). -/
def Obligations.MemoryReadsWhatWasWritten : Prop :=
  ∀ (m : Memory) (addr v : Word) (kind : Access), m.wf = true →
    (addr.toNat < 32768 → ∃ m', memWrite m addr v = .ok m' ∧ m'.wf = true ∧
      ∀ b : Word, b.toNat < 32768 → memRead m' b kind = .ok (if b = addr then v else m.peek b.toNat)) ∧
    (32768 ≤ addr.toNat → memWrite m addr v = .error (.addressOutOfRange addr .write) ∧
      memRead m addr kind = .error (.addressOutOfRange addr kind))

/-- Two memories of canonical form with the same cells are the same data. -/
def Obligations.SameCellsSameMemory : Prop :=
  ∀ m m' : Memory, m.wf = true → m'.wf = true → (∀ x, m.peek x = m'.peek x) → m = m'

/-! ## Reset, launch, invariant -/

/-- The values of reset that the spec gives (R36, R190): registers 0, `pc` 0, every cell 0, the stack empty, `Running`, no output. -/
def Obligations.ResetValues : Prop :=
  (∀ j : RegIdx, State.reset.reg j = 0) ∧ State.reset.pc = 0 ∧ (∀ x : Nat, State.reset.mem.peek x = 0) ∧
  State.reset.stack = [] ∧ State.reset.status = .running ∧ State.reset.out = []

/-- A launch (R32, R192, R193): an image of at most 32768 words is in the cells from 0, the other cells are 0 and everything else is as
at reset; a longer image is refused. -/
def Obligations.LaunchPlacesImage : Prop :=
  ∀ (params : Config) (img : List Word),
    (img.length ≤ 32768 → ∃ s, launch params img = some s ∧ (∀ x : Nat, s.mem.peek x = (img[x]?).getD 0) ∧ s.Inv ∧
      s = { State.reset with params := params, mem := s.mem }) ∧
    (32768 < img.length → launch params img = none)

/-- The host's moves during a run leave registers, memory, stack, `pc` and status alone, and keep the invariant (R35). -/
def Obligations.HostMovesLeaveCoreAlone : Prop :=
  ∀ (s t : State) (move : HostMove), s.hostMove move = some t →
    t.regs = s.regs ∧ t.pc = s.pc ∧ t.mem = s.mem ∧ t.stack = s.stack ∧ t.status = s.status ∧ t.params = s.params ∧
    (s.Inv → t.Inv)

/-- The invariant holds at reset. -/
def Obligations.ResetSatisfiesInv : Prop := State.reset.Inv

/-- Every step keeps the invariant: the memory stays in canonical form, the stack within its capacity, and a status that ends the run
is one the spec gives: `Halted(RetEmptyStack)` with an empty stack, or a fault that R167 allows its opcode. -/
def Obligations.StepKeepsInv : Prop :=
  ∀ s t : State, s.Inv → step s = .next t → t.Inv

/-- Every state of a run from a launch, whatever the image, the parameters and the host's moves, satisfies the invariant (R192, R196). -/
def Obligations.RunsFromLaunchKeepInv : Prop :=
  ∀ (params : Config) (img : List Word) (s t : State), launch params img = some s → Run s t → t.Inv
end

