-- ==== Sys2Proof/Laws/Decode.lean ====
section
/-! SUPPORT. Operand words and their classes are the same data, and what the decoder can answer. -/

namespace Sys2Proof

/-- The word of the class of a word is that word (R63). -/
@[simp] theorem word_classify (w : Word) : (classify w).word = w := by
  have hw := w.isLt
  simp only [classify, regBase]
  split
  next h =>
    apply BitVec.eq_of_toNat_eq
    simp only [Operand.word, BitVec.toNat_ofNat]
    omega
  next h =>
    split
    next h' =>
      apply BitVec.eq_of_toNat_eq
      simp only [Operand.word, regBase, BitVec.toNat_ofNat]
      omega
    next h' => rfl

/-- The class of the word of a class is that class (R63). -/
theorem classify_word {o : Operand} (h : o.canonical = true) : classify o.word = o := by
  cases o with
  | literal v =>
    have hv := v.isLt
    have h1 : (BitVec.ofNat 16 v.toNat).toNat = v.toNat := by rw [BitVec.toNat_ofNat]; omega
    simp only [classify, Operand.word, regBase, h1]
    rw [if_pos (by omega), BitVec.ofNat_toNat, BitVec.setWidth_eq]
  | register i =>
    have hi := i.isLt
    obtain ⟨w, hw⟩ : ∃ w, w = Operand.word (.register i) := ⟨_, rfl⟩
    have h1 : w.toNat = 32768 + i.val := by
      rw [hw, Operand.word, BitVec.toNat_ofNat, regBase]
      omega
    rw [← hw, classify, regBase, if_neg (by omega), dif_pos (by omega)]
    exact congrArg Operand.register (Fin.ext (by simp only; omega))
  | invalid w =>
    simp only [Operand.canonical, decide_eq_true_eq, regLimit] at h
    rw [Operand.word, classify, regBase]
    rw [if_neg (by omega), dif_neg (by omega)]

/-- The decoder gives the class of a word only (R63). -/
@[simp] theorem classify_canonical (w : Word) : (classify w).canonical = true := by
  simp only [classify]
  split
  · rfl
  · split
    · rfl
    next h h' =>
      simp only [regBase] at h h'
      simp only [Operand.canonical, regLimit, decide_eq_true_eq]
      omega

/-- The decoder refuses a word exactly if it is no opcode, and names it (R67). -/
theorem decode_eq_error {op a b c : Word} {e : DecodeError} :
    decode op a b c = .error e ↔ nOpcodes ≤ op.toNat ∧ e = .unknownOpcode op := by
  simp only [decode, nOpcodes]
  split
  case h_23 =>
    have hop : 22 ≤ op.toNat := by
      simp only [imp_false] at *
      omega
    simp [hop, eq_comm]
  all_goals simp [*]

/-- What the decoder answers has the opcode word it was given, and canonical operands. -/
theorem decode_eq_ok {op a b c : Word} {i : Instr} (h : decode op a b c = .ok i) :
    i.opcode = op ∧ i.canonical = true ∧ op.toNat < nOpcodes := by
  have key : ∀ n : Nat, op.toNat = n → BitVec.ofNat 16 n = op := by rintro _ rfl; simp
  simp only [decode] at h
  simp only [nOpcodes]
  split at h
  case h_23 => cases h
  all_goals
    next hn =>
      cases h
      exact ⟨key _ hn, by simp [Instr.canonical, Instr.operands], by omega⟩

/-- The length of an instruction is decided by its opcode word alone (R62). -/
theorem operandCount_opcode (i : Instr) : operandCount i.opcode = some i.operands.length := by
  cases i <;> rfl

theorem operandCount_eq_none {op : Word} : operandCount op = none ↔ nOpcodes ≤ op.toNat := by
  simp only [operandCount, nOpcodes]
  split
  case h_23 =>
    have hop : 22 ≤ op.toNat := by
      simp only [imp_false] at *
      omega
    simp [hop]
  all_goals
    simp only [reduceCtorEq, false_iff]
    omega

end Sys2Proof
end

