-- ==== Sys2Proof/Laws/Memory.lean ====
section
/-! SUPPORT. Reading after writing, and that every memory operation keeps the canonical form. -/

namespace Sys2Proof.Machine

@[simp] theorem peek_nil (addr : Nat) : Memory.peek [] addr = 0#16 := rfl

theorem peek_cons (a : Nat) (v : Word) (m : Memory) (addr : Nat) :
    Memory.peek ((a, v) :: m) addr = if a = addr then v else m.peek addr := rfl

@[simp] theorem risesFrom_nil (lo : Nat) : Memory.risesFrom lo [] = true := rfl

@[simp] theorem risesFrom_cons (lo a : Nat) (v : Word) (m : Memory) :
    Memory.risesFrom lo ((a, v) :: m) = true ↔ lo ≤ a ∧ Memory.risesFrom (a + 1) m = true := by
  simp [Memory.risesFrom]

/-- Rising from a bound is rising from any lower one. -/
theorem risesFrom_mono {lo lo' : Nat} {m : Memory} (h : Memory.risesFrom lo m = true) (hle : lo' ≤ lo) :
    Memory.risesFrom lo' m = true := by
  cases m with
  | nil => rfl
  | cons c m =>
    obtain ⟨a, v⟩ := c
    rw [risesFrom_cons] at h ⊢
    exact ⟨by omega, h.2⟩

/-- A cell below every listed one holds 0. -/
theorem peek_eq_zero_of_lt {lo addr : Nat} {m : Memory} (h : Memory.risesFrom lo m = true) (hlt : addr < lo) :
    m.peek addr = 0#16 := by
  induction m generalizing lo with
  | nil => rfl
  | cons c m ih =>
    obtain ⟨a, v⟩ := c
    rw [risesFrom_cons] at h
    rw [peek_cons, if_neg (by omega), ih h.2 (by omega)]

/-- A listed cell, whether it holds 0 or not, in front of cells above it. -/
theorem peek_consCell {addr : Nat} {m : Memory} (h : m.peek addr = 0#16) (w : Word) (b : Nat) :
    (Memory.consCell addr w m).peek b = if b = addr then w else m.peek b := by
  by_cases hw : w = 0#16
  · by_cases hb : b = addr
    · simp [Memory.consCell, hw, hb, h]
    · simp [Memory.consCell, hw, hb]
  · by_cases hb : b = addr
    · simp [Memory.consCell, hw, hb, peek_cons]
    · simp [Memory.consCell, hw, hb, Ne.symm hb, peek_cons]

theorem risesFrom_consCell {lo addr : Nat} {m : Memory} (h : Memory.risesFrom (addr + 1) m = true) (hlo : lo ≤ addr) (w : Word) :
    Memory.risesFrom lo (Memory.consCell addr w m) = true := by
  by_cases hw : w = 0#16
  · simpa [Memory.consCell, hw] using risesFrom_mono h (by omega)
  · simpa [Memory.consCell, hw] using ⟨hlo, h⟩

theorem mem_of_mem_consCell {addr : Nat} {w : Word} {m : Memory} {c : Nat × Word} (h : c ∈ Memory.consCell addr w m) :
    c ∈ m ∨ (c = (addr, w) ∧ w ≠ 0#16) := by
  by_cases hw : w = 0#16
  · exact .inl (by simpa [Memory.consCell, hw] using h)
  · rw [Memory.consCell, if_neg hw, List.mem_cons] at h
    exact h.symm.imp id (⟨·, hw⟩)

/-- A read after a write gives the word written, and every other cell is as before (R42, R43). -/
theorem peek_poke_of_rises {lo : Nat} {m : Memory} (h : Memory.risesFrom lo m = true) (addr : Nat) (w : Word) (b : Nat) :
    (m.poke addr w).peek b = if b = addr then w else m.peek b := by
  induction m generalizing lo with
  | nil => exact peek_consCell rfl w b
  | cons c m ih =>
    obtain ⟨a, v⟩ := c
    rw [risesFrom_cons] at h
    rw [Memory.poke]
    split
    next hlt =>
      have h' : Memory.risesFrom a ((a, v) :: m) = true := (risesFrom_cons ..).2 ⟨Nat.le_refl a, h.2⟩
      exact peek_consCell (peek_eq_zero_of_lt h' hlt) w b
    next hlt =>
      split
      next heq =>
        subst heq
        rw [peek_consCell (peek_eq_zero_of_lt h.2 (Nat.lt_succ_self addr)), peek_cons]
        by_cases hb : b = addr
        · simp [hb]
        · simp [hb, Ne.symm hb]
      next heq =>
        rw [peek_cons, peek_cons, ih h.2]
        by_cases ha : a = b
        · subst ha; simp [Ne.symm heq]
        · simp [ha]

theorem risesFrom_poke {lo : Nat} {m : Memory} (h : Memory.risesFrom lo m = true) {addr : Nat} (hlo : lo ≤ addr) (w : Word) :
    Memory.risesFrom lo (m.poke addr w) = true := by
  induction m generalizing lo with
  | nil => exact risesFrom_consCell rfl hlo w
  | cons c m ih =>
    obtain ⟨a, v⟩ := c
    rw [risesFrom_cons] at h
    rw [Memory.poke]
    split
    next hlt => exact risesFrom_consCell ((risesFrom_cons ..).2 ⟨hlt, h.2⟩) hlo w
    next hlt =>
      split
      next heq => subst heq; exact risesFrom_consCell h.2 hlo w
      next heq => exact (risesFrom_cons ..).2 ⟨h.1, ih h.2 (by omega)⟩

theorem mem_of_mem_poke {m : Memory} {addr : Nat} {w : Word} {c : Nat × Word} (h : c ∈ m.poke addr w) :
    c ∈ m ∨ (c = (addr, w) ∧ w ≠ 0#16) := by
  induction m with
  | nil => exact mem_of_mem_consCell h
  | cons d m ih =>
    obtain ⟨a, v⟩ := d
    rw [Memory.poke] at h
    split at h
    · exact mem_of_mem_consCell h
    · split at h
      · exact (mem_of_mem_consCell h).imp (List.mem_cons_of_mem _) id
      · rcases List.mem_cons.1 h with h | h
        · exact .inl (by simp [h])
        · exact (ih h).imp (List.mem_cons_of_mem _) id

/-- The canonical form, its parts named. -/
theorem wf_iff {m : Memory} :
    m.wf = true ↔ Memory.risesFrom 0 m = true ∧ ∀ c ∈ m, c.1 < memWords ∧ c.2 ≠ 0#16 := by
  simp [Memory.wf, List.all_eq_true]

theorem wf_nil : Memory.wf [] = true := rfl

/-- Writing a cell keeps the canonical form. -/
theorem wf_poke {m : Memory} (h : m.wf = true) {addr : Nat} (ha : addr < memWords) (w : Word) : (m.poke addr w).wf = true := by
  rw [wf_iff] at h ⊢
  refine ⟨risesFrom_poke h.1 (Nat.zero_le _) w, fun c hc => ?_⟩
  rcases mem_of_mem_poke hc with hc | ⟨rfl, hw⟩
  · exact h.2 c hc
  · exact ⟨ha, hw⟩

/-- A read after a write in a memory of canonical form. -/
theorem peek_poke {m : Memory} (h : m.wf = true) (addr : Nat) (w : Word) (b : Nat) :
    (m.poke addr w).peek b = if b = addr then w else m.peek b :=
  peek_poke_of_rises (wf_iff.1 h).1 addr w b

/-- Placing words that fit in memory keeps the canonical form. -/
theorem wf_place {m : Memory} (h : m.wf = true) (base : Nat) (ws : List Word) (hfit : base + ws.length ≤ memWords) :
    (m.place base ws).wf = true := by
  induction ws generalizing base with
  | nil => exact h
  | cons w ws ih =>
    simp only [List.length_cons] at hfit
    exact wf_poke (ih (base + 1) (by omega)) (by omega) w

/-- The cells after placing words: the words, and every other cell as before (R32). -/
theorem peek_place {m : Memory} (h : m.wf = true) (base : Nat) (ws : List Word) (hfit : base + ws.length ≤ memWords) (b : Nat) :
    (m.place base ws).peek b = if base ≤ b then (ws[b - base]?).getD (m.peek b) else m.peek b := by
  induction ws generalizing base with
  | nil => simp [Memory.place]
  | cons w ws ih =>
    simp only [List.length_cons] at hfit
    have hwf := wf_place h (base + 1) ws (by omega)
    rw [Memory.place, peek_poke hwf, ih (base + 1) (by omega)]
    by_cases hb : b = base
    · subst hb; simp
    · by_cases hle : base ≤ b
      · obtain ⟨k, rfl⟩ : ∃ k, b = base + 1 + k := ⟨b - base - 1, by omega⟩
        simp [show base + 1 + k - base = k + 1 by omega, show base + 1 + k ≠ base by omega,
          show base ≤ base + 1 + k by omega]
      · simp [hb, hle, show ¬ base + 1 ≤ b by omega]

/-- What a read can answer (R42). -/
theorem memRead_eq_ok {m : Memory} {addr w : Word} {k : Access} :
    memRead m addr k = .ok w ↔ addr.toNat < memWords ∧ w = m.peek addr.toNat := by
  simp only [memRead]
  split <;> simp_all [eq_comm]

theorem memRead_eq_error {m : Memory} {addr : Word} {k : Access} {c : FaultCause} :
    memRead m addr k = .error c ↔ memWords ≤ addr.toNat ∧ c = .addressOutOfRange addr k := by
  simp only [memRead]
  split <;> simp_all [eq_comm]

/-- What a write can answer (R43). -/
theorem memWrite_eq_ok {m m' : Memory} {addr w : Word} :
    memWrite m addr w = .ok m' ↔ addr.toNat < memWords ∧ m' = m.poke addr.toNat w := by
  simp only [memWrite]
  split <;> simp_all [eq_comm]

theorem memWrite_eq_error {m : Memory} {addr w : Word} {c : FaultCause} :
    memWrite m addr w = .error c ↔ memWords ≤ addr.toNat ∧ c = .addressOutOfRange addr .write := by
  simp only [memWrite]
  split <;> simp_all [eq_comm]

end Sys2Proof.Machine
end

