-- ==== Sys2Proof/Laws/State.lean ====
section
/-! SUPPORT. One lemma per field per update of the state, each true by unfolding the update once. -/

namespace Sys2Proof.Machine

section Reg
variable (s : State) (i j : RegIdx) (v : Word)

@[simp] theorem reg_setReg : (s.setReg i v).reg j = if i = j then v else s.reg j := by
  simp [State.reg, State.setReg, Vector.getElem_set, Fin.ext_iff]

@[simp] theorem setReg_pc : (s.setReg i v).pc = s.pc := rfl
@[simp] theorem setReg_mem : (s.setReg i v).mem = s.mem := rfl
@[simp] theorem setReg_stack : (s.setReg i v).stack = s.stack := rfl
@[simp] theorem setReg_status : (s.setReg i v).status = s.status := rfl
@[simp] theorem setReg_params : (s.setReg i v).params = s.params := rfl
@[simp] theorem setReg_inq : (s.setReg i v).inq = s.inq := rfl
@[simp] theorem setReg_ineof : (s.setReg i v).ineof = s.ineof := rfl
@[simp] theorem setReg_out : (s.setReg i v).out = s.out := rfl

end Reg

section Pc
variable (s : State) (v : Word) (n : Nat)

@[simp] theorem setPc_pc : (s.setPc v).pc = v := rfl
@[simp] theorem setPc_regs : (s.setPc v).regs = s.regs := rfl
@[simp] theorem setPc_mem : (s.setPc v).mem = s.mem := rfl
@[simp] theorem setPc_stack : (s.setPc v).stack = s.stack := rfl
@[simp] theorem setPc_status : (s.setPc v).status = s.status := rfl
@[simp] theorem setPc_params : (s.setPc v).params = s.params := rfl
@[simp] theorem setPc_inq : (s.setPc v).inq = s.inq := rfl
@[simp] theorem setPc_ineof : (s.setPc v).ineof = s.ineof := rfl
@[simp] theorem setPc_out : (s.setPc v).out = s.out := rfl

@[simp] theorem advance_pc : (s.advance n).pc = s.pc + BitVec.ofNat 16 (1 + n) := rfl
@[simp] theorem advance_regs : (s.advance n).regs = s.regs := rfl
@[simp] theorem advance_mem : (s.advance n).mem = s.mem := rfl
@[simp] theorem advance_stack : (s.advance n).stack = s.stack := rfl
@[simp] theorem advance_status : (s.advance n).status = s.status := rfl
@[simp] theorem advance_params : (s.advance n).params = s.params := rfl
@[simp] theorem advance_inq : (s.advance n).inq = s.inq := rfl
@[simp] theorem advance_ineof : (s.advance n).ineof = s.ineof := rfl
@[simp] theorem advance_out : (s.advance n).out = s.out := rfl

end Pc

section StatusAndMemory
variable (s : State) (st : Status) (m : Memory)

@[simp] theorem setStatus_status : (s.setStatus st).status = st := rfl
@[simp] theorem setStatus_regs : (s.setStatus st).regs = s.regs := rfl
@[simp] theorem setStatus_pc : (s.setStatus st).pc = s.pc := rfl
@[simp] theorem setStatus_mem : (s.setStatus st).mem = s.mem := rfl
@[simp] theorem setStatus_stack : (s.setStatus st).stack = s.stack := rfl
@[simp] theorem setStatus_params : (s.setStatus st).params = s.params := rfl
@[simp] theorem setStatus_inq : (s.setStatus st).inq = s.inq := rfl
@[simp] theorem setStatus_ineof : (s.setStatus st).ineof = s.ineof := rfl
@[simp] theorem setStatus_out : (s.setStatus st).out = s.out := rfl

@[simp] theorem setMem_mem : (s.setMem m).mem = m := rfl
@[simp] theorem setMem_regs : (s.setMem m).regs = s.regs := rfl
@[simp] theorem setMem_pc : (s.setMem m).pc = s.pc := rfl
@[simp] theorem setMem_stack : (s.setMem m).stack = s.stack := rfl
@[simp] theorem setMem_status : (s.setMem m).status = s.status := rfl
@[simp] theorem setMem_params : (s.setMem m).params = s.params := rfl
@[simp] theorem setMem_inq : (s.setMem m).inq = s.inq := rfl
@[simp] theorem setMem_ineof : (s.setMem m).ineof = s.ineof := rfl
@[simp] theorem setMem_out : (s.setMem m).out = s.out := rfl

end StatusAndMemory

section OutAndRaise
variable (s : State) (b : Byte) (op : Option Word) (e : Raised)

@[simp] theorem outPut_out : (s.outPut b).out = s.out ++ [b] := rfl
@[simp] theorem outPut_regs : (s.outPut b).regs = s.regs := rfl
@[simp] theorem outPut_pc : (s.outPut b).pc = s.pc := rfl
@[simp] theorem outPut_mem : (s.outPut b).mem = s.mem := rfl
@[simp] theorem outPut_stack : (s.outPut b).stack = s.stack := rfl
@[simp] theorem outPut_status : (s.outPut b).status = s.status := rfl
@[simp] theorem outPut_params : (s.outPut b).params = s.params := rfl
@[simp] theorem outPut_inq : (s.outPut b).inq = s.inq := rfl
@[simp] theorem outPut_ineof : (s.outPut b).ineof = s.ineof := rfl

@[simp] theorem raise_pc : (s.raise op e).pc = s.pc + BitVec.ofNat 16 e.fetched := rfl
@[simp] theorem raise_status : (s.raise op e).status = .faulted ⟨e.cause, s.pc, op⟩ := rfl
@[simp] theorem raise_regs : (s.raise op e).regs = s.regs := rfl
@[simp] theorem raise_mem : (s.raise op e).mem = s.mem := rfl
@[simp] theorem raise_stack : (s.raise op e).stack = s.stack := rfl
@[simp] theorem raise_params : (s.raise op e).params = s.params := rfl
@[simp] theorem raise_inq : (s.raise op e).inq = s.inq := rfl
@[simp] theorem raise_ineof : (s.raise op e).ineof = s.ineof := rfl
@[simp] theorem raise_out : (s.raise op e).out = s.out := rfl

end OutAndRaise

/-- A register reads the same in two states with the same register file. -/
theorem reg_congr {s t : State} (h : s.regs = t.regs) (i : RegIdx) : s.reg i = t.reg i := by
  simp only [State.reg, h]

/-- The state is its fields: two register files with the same registers are the same. -/
theorem regs_ext {s t : State} (h : ∀ i : RegIdx, s.reg i = t.reg i) : s.regs = t.regs := by
  apply Vector.ext
  intro i hi
  exact h ⟨i, hi⟩

end Sys2Proof.Machine
end

