-- ==== Sys2Proof/Laws/Ops.lean ====
section
/-! SUPPORT. One lemma per shared operation that says everything it can answer. -/

namespace Sys2Proof.Machine

/-- A sequence of two computations answers exactly when both do. -/
theorem bind_eq_ok {α β : Type} {x : Except Raised α} {f : α → Except Raised β} {b : β} :
    (x >>= f) = .ok b ↔ ∃ a, x = .ok a ∧ f a = .ok b := by
  cases x <;> simp [bind, Except.bind]

/-- A sequence raises what its first part raises, or what its second does. -/
theorem bind_eq_error {α β : Type} {x : Except Raised α} {f : α → Except Raised β} {e : Raised} :
    (x >>= f) = .error e ↔ x = .error e ∨ ∃ a, x = .ok a ∧ f a = .error e := by
  cases x <;> simp [bind, Except.bind]

@[simp] theorem ok_bind {α β : Type} (a : α) (f : α → Except Raised β) : ((Except.ok a : Except Raised α) >>= f) = f a := rfl

@[simp] theorem error_bind {α β : Type} (e : Raised) (f : α → Except Raised β) :
    ((Except.error e : Except Raised α) >>= f) = .error e := rfl

@[simp] theorem finish_ok (i : Instr) (s t : State) : finish i s (.ok t) = .next t := rfl

@[simp] theorem finish_pure (i : Instr) (s t : State) : finish i s (pure t) = .next t := rfl

@[simp] theorem finish_error (i : Instr) (s : State) (e : Raised) :
    finish i s (.error e) = .next (s.raise (some i.opcode) e) := rfl

/-- An instruction always has a next state: its effect, or the fault it raised. -/
theorem finish_cases {i : Instr} {s t : State} {r : Except Raised State} (h : finish i s r = .next t) :
    r = .ok t ∨ ∃ e, r = .error e ∧ t = s.raise (some i.opcode) e := by
  cases r with
  | ok u => exact .inl (by simpa [finish] using h)
  | error e => exact .inr ⟨e, rfl, by simpa [finish, eq_comm] using h⟩

theorem finish_next (i : Instr) (s : State) (r : Except Raised State) : ∃ t, finish i s r = .next t := by
  cases r with
  | ok t => exact ⟨t, rfl⟩
  | error e => exact ⟨_, rfl⟩

theorem raiseAt_eq_ok {α : Type} {n : Nat} {x : Except FaultCause α} {a : α} : raiseAt n x = .ok a ↔ x = .ok a := by
  cases x <;> simp [raiseAt]

theorem raiseAt_eq_error {α : Type} {n : Nat} {x : Except FaultCause α} {e : Raised} :
    raiseAt n x = .error e ↔ ∃ c, x = .error c ∧ e = ⟨n, c⟩ := by
  cases x <;> simp [raiseAt, eq_comm]

theorem operandExists_iff {s : State} {k : Nat} : s.operandExists k = true ↔ s.pc.toNat + k < memWords := by
  simp [State.operandExists]

/-- An operand word lies in memory if a later one does. -/
theorem operandExists_mono {s : State} {j k : Nat} (h : s.operandExists k = true) (hjk : j ≤ k) : s.operandExists j = true := by
  rw [operandExists_iff] at h ⊢
  omega

theorem regOf_eq_some {o : Operand} {i : RegIdx} : regOf o = some i ↔ o = .register i := by
  cases o <;> simp [regOf]

theorem regOf_isNone {o : Operand} : regOf o = none ↔ Role.regSlot.accepts o = false := by
  cases o <;> simp [regOf, Role.accepts]

theorem valueOf_isNone {s : State} {o : Operand} : s.valueOf o = none ↔ Role.value.accepts o = false := by
  cases o <;> simp [State.valueOf, Role.accepts]

/-- What `RegSlot(Fetch())` answers (R82, R83). -/
theorem regSlot_eq_ok {s : State} {k : Nat} {o : Operand} {i : RegIdx} :
    regSlot s k o = .ok i ↔ s.operandExists k = true ∧ o = .register i := by
  cases o <;> by_cases h : s.operandExists k = true <;> simp [regSlot, regOf, h]

/-- What `RegSlot(Fetch())` raises (R82, R83). -/
theorem regSlot_eq_error {s : State} {k : Nat} {o : Operand} {e : Raised} :
    regSlot s k o = .error e ↔
      (s.operandExists k = false ∧ e = s.fetchPastTop k) ∨
      (s.operandExists k = true ∧ Role.regSlot.accepts o = false ∧ e = ⟨k + 1, .invalidRegister o.word⟩) := by
  cases o <;> by_cases h : s.operandExists k = true <;> simp [regSlot, regOf, h, Role.accepts, eq_comm]

/-- What `Val(Fetch())` answers (R82, R84). -/
theorem val_eq_ok {s : State} {k : Nat} {o : Operand} {v : Word} :
    val s k o = .ok v ↔ s.operandExists k = true ∧ s.valueOf o = some v := by
  cases o <;> by_cases h : s.operandExists k = true <;> simp [val, State.valueOf, h]

/-- What `Val(Fetch())` raises (R82, R84). -/
theorem val_eq_error {s : State} {k : Nat} {o : Operand} {e : Raised} :
    val s k o = .error e ↔
      (s.operandExists k = false ∧ e = s.fetchPastTop k) ∨
      (s.operandExists k = true ∧ Role.value.accepts o = false ∧ e = ⟨k + 1, .invalidAddress o.word⟩) := by
  cases o <;> by_cases h : s.operandExists k = true <;> simp [val, State.valueOf, h, Role.accepts, eq_comm]

/-- A legal register slot whose word lies in memory gives its register. -/
theorem regSlot_register {s : State} {k : Nat} {i : RegIdx} (h : s.operandExists k = true) : regSlot s k (.register i) = .ok i :=
  regSlot_eq_ok.2 ⟨h, rfl⟩

/-- A value operand whose word lies in memory gives its value. -/
theorem val_of_valueOf {s : State} {k : Nat} {o : Operand} {v : Word} (h : s.operandExists k = true) (hv : s.valueOf o = some v) :
    val s k o = .ok v :=
  val_eq_ok.2 ⟨h, hv⟩

/-- An operand that is legal as a register slot is a register reference. -/
theorem accepts_regSlot {o : Operand} : Role.regSlot.accepts o = true ↔ ∃ i, o = .register i := by
  cases o <;> simp [Role.accepts]

/-- An operand that is legal as a value has a value in every state. -/
theorem accepts_value {s : State} {o : Operand} : Role.value.accepts o = true ↔ ∃ v, s.valueOf o = some v := by
  cases o <;> simp [Role.accepts, State.valueOf]

/-- What `Push(v)` answers (R27). -/
theorem push_eq_ok {s t : State} {v : Word} :
    s.push v = .ok t ↔ s.params.stackCapacity ≠ some s.sp ∧ t = { s with stack := s.stack ++ [v] } := by
  simp only [State.push]
  split <;> simp_all [eq_comm]

theorem push_eq_error {s : State} {v : Word} {c : FaultCause} :
    s.push v = .error c ↔ s.params.stackCapacity = some s.sp ∧ c = .stackOverflow v := by
  simp only [State.push]
  split <;> simp_all [eq_comm]

/-- What `Pop()` answers (R28). -/
theorem pop_eq_some {s t : State} {v : Word} :
    s.pop = some (v, t) ↔ ∃ rest, s.stack = rest ++ [v] ∧ t = { s with stack := rest } := by
  rcases List.eq_nil_or_concat s.stack with h | ⟨rest, w, h⟩
  · simp [State.pop, h]
  · simp only [List.concat_eq_append] at h
    simp only [State.pop, h, List.getLast?_concat, List.dropLast_concat, Option.some.injEq, Prod.mk.injEq]
    constructor
    · rintro ⟨rfl, rfl⟩
      exact ⟨rest, rfl, rfl⟩
    · rintro ⟨rest', h', rfl⟩
      obtain ⟨rfl, h''⟩ := List.append_inj' h' rfl
      exact ⟨by simpa using h'', rfl⟩

theorem pop_eq_none {s : State} : s.pop = none ↔ s.stack = [] := by
  rcases List.eq_nil_or_concat s.stack with h | ⟨rest, w, h⟩
  · simp [State.pop, h]
  · simp [State.pop, h]

/-- What `InTake()` answers (R33). -/
theorem inTake_eq_some {s t : State} {b : Byte} :
    s.inTake = some (b, t) ↔ ∃ rest, s.inq = b :: rest ∧ t = { s with inq := rest } := by
  cases h : s.inq with
  | nil => simp [State.inTake, h]
  | cons c rest =>
    simp only [State.inTake, h, Option.some.injEq, Prod.mk.injEq, List.cons.injEq]
    constructor
    · rintro ⟨rfl, rfl⟩
      exact ⟨rest, ⟨rfl, rfl⟩, rfl⟩
    · rintro ⟨rest', ⟨rfl, rfl⟩, rfl⟩
      exact ⟨rfl, rfl⟩

theorem inTake_eq_none {s : State} : s.inTake = none ↔ s.inq = [] := by
  cases h : s.inq <;> simp [State.inTake, h]

theorem inEof_iff {s : State} : s.inEof = true ↔ s.inq = [] ∧ s.ineof = true := by
  simp [State.inEof]

end Sys2Proof.Machine
end

