-- ==== Sys2Proof/Laws/Exec.lean ====
section
/-! SUPPORT. What an instruction can do, said once: every answer of exec is one of the cases of Change. -/

namespace Sys2Proof.Machine

/-- The next states of an instruction. Every case names the instructions it belongs to and the whole of the change. -/
inductive Change (i : Instr) (s : State) : State → Prop where
  /-- A fault that the instruction can raise, after its opcode word and at most all its own words were fetched. -/
  | fault (e : Raised) (hc : mayRaise i.opcode e.cause = true) (hn : 1 ≤ e.fetched ∧ e.fetched ≤ 1 + i.operands.length) :
    Change i s (s.raise (some i.opcode) e)
  | halt (hi : i = .halt) : Change i s ((s.advance 0).setStatus (.halted .haltInstr))
  | retEmpty (hi : i = .ret) (hs : s.stack = []) : Change i s ((s.advance 0).setStatus (.halted .retEmptyStack))
  /-- A jump not taken, or `noop`. -/
  | fallThrough (hi : i = .noop ∨ (∃ a b, i = .jt a b) ∨ ∃ a b, i = .jf a b) :
    Change i s (s.advance i.operands.length)
  | jump (target : Word) (hi : (∃ a, i = .jmp a) ∨ (∃ a b, i = .jt a b) ∨ ∃ a b, i = .jf a b) : Change i s (s.setPc target)
  /-- A register is written: `set`, `rmem`, `not` and the `F3RVV` instructions, and `in` at end of input. -/
  | write (r : RegIdx) (v : Word) (hi : i.operands.head? = some (.regSlot, .register r)) (hp : ∀ o, i ≠ .pop o) :
    Change i s ((s.setReg r v).advance i.operands.length)
  | push (v : Word) (a : Operand) (hi : i = .push a) (hv : s.valueOf a = some v)
    (hcap : s.params.stackCapacity ≠ some s.sp) : Change i s (({ s with stack := s.stack ++ [v] } : State).advance 1)
  | pop (r : RegIdx) (v : Word) (rest : List Word) (hi : i = .pop (.register r)) (hs : s.stack = rest ++ [v]) :
    Change i s ((({ s with stack := rest } : State).setReg r v).advance 1)
  | call (target : Word) (a : Operand) (hi : i = .call a) (hv : s.valueOf a = some target)
    (hcap : s.params.stackCapacity ≠ some s.sp) :
    Change i s (({ s with stack := s.stack ++ [(s.advance 1).pc] } : State).setPc target)
  | ret (target : Word) (rest : List Word) (hi : i = .ret) (hs : s.stack = rest ++ [target]) :
    Change i s (({ s with stack := rest } : State).setPc target)
  | store (addr v : Word) (a b : Operand) (hi : i = .wmem a b) (ha : s.valueOf a = some addr) (hv : s.valueOf b = some v)
    (hlt : addr.toNat < memWords) : Change i s ((s.setMem (s.mem.poke addr.toNat v)).advance 2)
  | output (v : Word) (a : Operand) (hi : i = .out a) (hv : s.valueOf a = some v) :
    Change i s ((s.outPut (lowByte v)).advance 1)
  | input (r : RegIdx) (b : Byte) (rest : List Byte) (hi : i = .inp (.register r)) (hs : s.inq = b :: rest) :
    Change i s ((({ s with inq := rest } : State).setReg r (zext16 b)).advance 1)

section Faults
variable {i : Instr} {s : State} {k : Nat} {o : Operand} {e : Raised}

/-- A fault of `RegSlot(Fetch())` is one that the instruction can raise, if it has a register slot. -/
theorem regSlot_fault (h : regSlot s k o = .error e) (hk : 1 ≤ k ∧ k ≤ i.operands.length)
    (hr : mayRaise i.opcode (.invalidRegister o.word) = true)
    (hf : mayRaise i.opcode (.addressOutOfRange (s.pc + BitVec.ofNat 16 k) .fetch) = true) :
    Change i s (s.raise (some i.opcode) e) := by
  rcases regSlot_eq_error.1 h with ⟨-, rfl⟩ | ⟨-, -, rfl⟩
  · exact .fault _ hf (by simp only [State.fetchPastTop]; omega)
  · exact .fault _ hr (by simp only; omega)

/-- A fault of `Val(Fetch())` is one that the instruction can raise, if it has a value operand. -/
theorem val_fault (h : val s k o = .error e) (hk : 1 ≤ k ∧ k ≤ i.operands.length)
    (hv : mayRaise i.opcode (.invalidAddress o.word) = true)
    (hf : mayRaise i.opcode (.addressOutOfRange (s.pc + BitVec.ofNat 16 k) .fetch) = true) :
    Change i s (s.raise (some i.opcode) e) := by
  rcases val_eq_error.1 h with ⟨-, rfl⟩ | ⟨-, -, rfl⟩
  · exact .fault _ hf (by simp only [State.fetchPastTop]; omega)
  · exact .fault _ hv (by simp only; omega)

end Faults

section PerInstruction
variable {a b c : Operand} {s t : State}

/-- An instruction of format `F3RVV` writes its destination or raises an operand fault. -/
theorem execRVV_change {i : Instr} {f : Word → Word → Word} (h0 : execRVV i a b c f s = .next t)
    (ho : i.operands = [(.regSlot, a), (.value, b), (.value, c)])
    (hr : ∀ w, mayRaise i.opcode (.invalidRegister w) = true) (hv : ∀ w, mayRaise i.opcode (.invalidAddress w) = true)
    (hf : ∀ w, mayRaise i.opcode (.addressOutOfRange w .fetch) = true) : Change i s t := by
  rcases finish_cases h0 with h | ⟨e, h, rfl⟩
  · obtain ⟨r, h1, k1⟩ := bind_eq_ok.1 h
    obtain ⟨u, -, k2⟩ := bind_eq_ok.1 k1
    obtain ⟨v, -, k3⟩ := bind_eq_ok.1 k2
    obtain ⟨-, rfl⟩ := regSlot_eq_ok.1 h1
    cases k3
    simpa [ho] using Change.write (i := i) (s := s) r (f u v) (by simp [ho]) (by rintro o rfl; simp [Instr.operands] at ho)
  · rcases bind_eq_error.1 h with h | ⟨r, -, h⟩
    · exact regSlot_fault h (by simp [ho]) (hr _) (hf _)
    rcases bind_eq_error.1 h with h | ⟨u, -, h⟩
    · exact val_fault h (by simp [ho]) (hv _) (hf _)
    rcases bind_eq_error.1 h with h | ⟨v, -, h⟩
    · exact val_fault h (by simp [ho]) (hv _) (hf _)
    cases h

theorem execHalt_change (h : execHalt s = .next t) : Change .halt s t := by
  cases h
  exact .halt rfl

theorem execNoop_change (h : execNoop s = .next t) : Change .noop s t := by
  cases h
  exact .fallThrough (.inl rfl)

theorem execSet_change (h0 : execSet a b s = .next t) : Change (.set a b) s t := by
  rcases finish_cases h0 with h | ⟨e, h, rfl⟩
  · obtain ⟨r, h1, k1⟩ := bind_eq_ok.1 h
    obtain ⟨v, -, k2⟩ := bind_eq_ok.1 k1
    obtain ⟨-, rfl⟩ := regSlot_eq_ok.1 h1
    cases k2
    exact .write r v rfl (by simp)
  · rcases bind_eq_error.1 h with h | ⟨r, -, h⟩
    · exact regSlot_fault h (by simp [Instr.operands]) rfl rfl
    rcases bind_eq_error.1 h with h | ⟨v, -, h⟩
    · exact val_fault h (by simp [Instr.operands]) rfl rfl
    cases h

theorem execNot_change (h0 : execNot a b s = .next t) : Change (.not a b) s t := by
  rcases finish_cases h0 with h | ⟨e, h, rfl⟩
  · obtain ⟨r, h1, k1⟩ := bind_eq_ok.1 h
    obtain ⟨v, -, k2⟩ := bind_eq_ok.1 k1
    obtain ⟨-, rfl⟩ := regSlot_eq_ok.1 h1
    cases k2
    exact .write r (notWord v) rfl (by simp)
  · rcases bind_eq_error.1 h with h | ⟨r, -, h⟩
    · exact regSlot_fault h (by simp [Instr.operands]) rfl rfl
    rcases bind_eq_error.1 h with h | ⟨v, -, h⟩
    · exact val_fault h (by simp [Instr.operands]) rfl rfl
    cases h

theorem execPush_change (h0 : execPush a s = .next t) : Change (.push a) s t := by
  rcases finish_cases h0 with h | ⟨e, h, rfl⟩
  · obtain ⟨v, hv, k1⟩ := bind_eq_ok.1 h
    obtain ⟨u, hu, k2⟩ := bind_eq_ok.1 k1
    obtain ⟨hcap, rfl⟩ := push_eq_ok.1 (raiseAt_eq_ok.1 hu)
    cases k2
    exact .push v a rfl (val_eq_ok.1 hv).2 hcap
  · rcases bind_eq_error.1 h with h | ⟨v, -, h⟩
    · exact val_fault h (by simp [Instr.operands]) rfl rfl
    rcases bind_eq_error.1 h with h | ⟨u, -, h⟩
    · obtain ⟨c, hc, rfl⟩ := raiseAt_eq_error.1 h
      obtain ⟨-, rfl⟩ := push_eq_error.1 hc
      exact .fault _ rfl ⟨by simp, by simp [Instr.operands]⟩
    cases h

theorem execPop_change (h0 : execPop a s = .next t) : Change (.pop a) s t := by
  rcases finish_cases h0 with h | ⟨e, h, rfl⟩
  · obtain ⟨r, h1, k1⟩ := bind_eq_ok.1 h
    obtain ⟨-, rfl⟩ := regSlot_eq_ok.1 h1
    rcases hp : s.pop with _ | ⟨v, u⟩
    · simp [hp] at k1
    · obtain ⟨rest, hs, rfl⟩ := pop_eq_some.1 hp
      simp only [hp] at k1
      cases k1
      exact .pop r v rest rfl hs
  · rcases bind_eq_error.1 h with h | ⟨r, -, h⟩
    · exact regSlot_fault h (by simp [Instr.operands]) rfl rfl
    rcases hp : s.pop with _ | ⟨v, u⟩
    · simp only [hp, Except.error.injEq] at h
      subst h
      exact .fault _ rfl ⟨by simp, by simp [Instr.operands]⟩
    · simp [hp] at h

theorem execJmp_change (h0 : execJmp a s = .next t) : Change (.jmp a) s t := by
  rcases finish_cases h0 with h | ⟨e, h, rfl⟩
  · obtain ⟨v, -, k1⟩ := bind_eq_ok.1 h
    cases k1
    exact .jump v (.inl ⟨a, rfl⟩)
  · rcases bind_eq_error.1 h with h | ⟨v, -, h⟩
    · exact val_fault h (by simp [Instr.operands]) rfl rfl
    cases h

theorem execJt_change (h0 : execJt a b s = .next t) : Change (.jt a b) s t := by
  rcases finish_cases h0 with h | ⟨e, h, rfl⟩
  · obtain ⟨u, -, k1⟩ := bind_eq_ok.1 h
    obtain ⟨v, -, k2⟩ := bind_eq_ok.1 k1
    cases k2
    split
    · exact .jump v (.inr (.inl ⟨a, b, rfl⟩))
    · exact .fallThrough (.inr (.inl ⟨a, b, rfl⟩))
  · rcases bind_eq_error.1 h with h | ⟨u, -, h⟩
    · exact val_fault h (by simp [Instr.operands]) rfl rfl
    rcases bind_eq_error.1 h with h | ⟨v, -, h⟩
    · exact val_fault h (by simp [Instr.operands]) rfl rfl
    cases h

theorem execJf_change (h0 : execJf a b s = .next t) : Change (.jf a b) s t := by
  rcases finish_cases h0 with h | ⟨e, h, rfl⟩
  · obtain ⟨u, -, k1⟩ := bind_eq_ok.1 h
    obtain ⟨v, -, k2⟩ := bind_eq_ok.1 k1
    cases k2
    split
    · exact .fallThrough (.inr (.inr ⟨a, b, rfl⟩))
    · exact .jump v (.inr (.inr ⟨a, b, rfl⟩))
  · rcases bind_eq_error.1 h with h | ⟨u, -, h⟩
    · exact val_fault h (by simp [Instr.operands]) rfl rfl
    rcases bind_eq_error.1 h with h | ⟨v, -, h⟩
    · exact val_fault h (by simp [Instr.operands]) rfl rfl
    cases h

theorem execCall_change (h0 : execCall a s = .next t) : Change (.call a) s t := by
  rcases finish_cases h0 with h | ⟨e, h, rfl⟩
  · obtain ⟨v, hv, k1⟩ := bind_eq_ok.1 h
    obtain ⟨u, hu, k2⟩ := bind_eq_ok.1 k1
    obtain ⟨hcap, rfl⟩ := push_eq_ok.1 (raiseAt_eq_ok.1 hu)
    cases k2
    exact .call v a rfl (val_eq_ok.1 hv).2 hcap
  · rcases bind_eq_error.1 h with h | ⟨v, -, h⟩
    · exact val_fault h (by simp [Instr.operands]) rfl rfl
    rcases bind_eq_error.1 h with h | ⟨u, -, h⟩
    · obtain ⟨c, hc, rfl⟩ := raiseAt_eq_error.1 h
      obtain ⟨-, rfl⟩ := push_eq_error.1 hc
      exact .fault _ rfl ⟨by simp, by simp [Instr.operands]⟩
    cases h

theorem execRet_change (h : execRet s = .next t) : Change .ret s t := by
  rcases hp : s.pop with _ | ⟨v, u⟩
  · simp only [execRet, hp, finish_ok] at h
    cases h
    exact .retEmpty rfl (pop_eq_none.1 hp)
  · obtain ⟨rest, hs, rfl⟩ := pop_eq_some.1 hp
    simp only [execRet, hp, finish_ok] at h
    cases h
    exact .ret v rest rfl hs

theorem execMod_change (h0 : execMod a b c s = .next t) : Change (.mod a b c) s t := by
  rcases finish_cases h0 with h | ⟨e, h, rfl⟩
  · obtain ⟨r, h1, k1⟩ := bind_eq_ok.1 h
    obtain ⟨u, -, k2⟩ := bind_eq_ok.1 k1
    obtain ⟨v, -, k3⟩ := bind_eq_ok.1 k2
    obtain ⟨-, rfl⟩ := regSlot_eq_ok.1 h1
    split at k3
    · cases k3
    · cases k3
      exact .write r (modWord u v) rfl (by simp)
  · rcases bind_eq_error.1 h with h | ⟨r, -, h⟩
    · exact regSlot_fault h (by simp [Instr.operands]) rfl rfl
    rcases bind_eq_error.1 h with h | ⟨u, -, h⟩
    · exact val_fault h (by simp [Instr.operands]) rfl rfl
    rcases bind_eq_error.1 h with h | ⟨v, -, h⟩
    · exact val_fault h (by simp [Instr.operands]) rfl rfl
    split at h
    · cases h
      exact .fault _ rfl ⟨by simp, by simp [Instr.operands]⟩
    · cases h

theorem execRmem_change (h0 : execRmem a b s = .next t) : Change (.rmem a b) s t := by
  rcases finish_cases h0 with h | ⟨e, h, rfl⟩
  · obtain ⟨r, h1, k1⟩ := bind_eq_ok.1 h
    obtain ⟨addr, -, k2⟩ := bind_eq_ok.1 k1
    obtain ⟨v, -, k3⟩ := bind_eq_ok.1 k2
    obtain ⟨-, rfl⟩ := regSlot_eq_ok.1 h1
    cases k3
    exact .write r v rfl (by simp)
  · rcases bind_eq_error.1 h with h | ⟨r, -, h⟩
    · exact regSlot_fault h (by simp [Instr.operands]) rfl rfl
    rcases bind_eq_error.1 h with h | ⟨addr, -, h⟩
    · exact val_fault h (by simp [Instr.operands]) rfl rfl
    rcases bind_eq_error.1 h with h | ⟨v, -, h⟩
    · obtain ⟨c, hc, rfl⟩ := raiseAt_eq_error.1 h
      obtain ⟨-, rfl⟩ := memRead_eq_error.1 hc
      exact .fault _ rfl ⟨by simp, by simp [Instr.operands]⟩
    cases h

theorem execWmem_change (h0 : execWmem a b s = .next t) : Change (.wmem a b) s t := by
  rcases finish_cases h0 with h | ⟨e, h, rfl⟩
  · obtain ⟨addr, ha, k1⟩ := bind_eq_ok.1 h
    obtain ⟨v, hv, k2⟩ := bind_eq_ok.1 k1
    obtain ⟨m, hm, k3⟩ := bind_eq_ok.1 k2
    obtain ⟨hlt, rfl⟩ := memWrite_eq_ok.1 (raiseAt_eq_ok.1 hm)
    cases k3
    exact .store addr v a b rfl (val_eq_ok.1 ha).2 (val_eq_ok.1 hv).2 hlt
  · rcases bind_eq_error.1 h with h | ⟨addr, -, h⟩
    · exact val_fault h (by simp [Instr.operands]) rfl rfl
    rcases bind_eq_error.1 h with h | ⟨v, -, h⟩
    · exact val_fault h (by simp [Instr.operands]) rfl rfl
    rcases bind_eq_error.1 h with h | ⟨m, -, h⟩
    · obtain ⟨c, hc, rfl⟩ := raiseAt_eq_error.1 h
      obtain ⟨-, rfl⟩ := memWrite_eq_error.1 hc
      exact .fault _ rfl ⟨by simp, by simp [Instr.operands]⟩
    cases h

theorem execOut_change (h0 : execOut a s = .next t) : Change (.out a) s t := by
  rcases finish_cases h0 with h | ⟨e, h, rfl⟩
  · obtain ⟨v, hv, k1⟩ := bind_eq_ok.1 h
    cases k1
    exact .output v a rfl (val_eq_ok.1 hv).2
  · rcases bind_eq_error.1 h with h | ⟨v, -, h⟩
    · exact val_fault h (by simp [Instr.operands]) rfl rfl
    cases h

theorem execInp_change (h : execInp a s = .next t) : Change (.inp a) s t := by
  rcases h1 : regSlot s 1 a with e | r
  · simp only [execInp, h1, finish_error] at h
    cases h
    exact regSlot_fault h1 (by simp [Instr.operands]) rfl rfl
  obtain ⟨-, rfl⟩ := regSlot_eq_ok.1 h1
  rcases hq : s.inTake with _ | ⟨b, u⟩
  · simp only [execInp, h1, hq] at h
    split at h
    · split at h <;> cases h
      · exact .fault _ rfl ⟨by simp, by simp [Instr.operands]⟩
      · exact .write r 0 rfl (by simp)
    · cases h
  · obtain ⟨rest, hs, rfl⟩ := inTake_eq_some.1 hq
    simp only [execInp, h1, hq, finish_ok] at h
    cases h
    exact .input r b rest rfl hs

/-- When `in` has a next state, and when it is held (R155). -/
theorem execInp_next_or_held :
    (∃ t, execInp a s = .next t) ∨
    (execInp a s = .fault .heldForInput ∧ s.operandExists 1 = true ∧ (∃ r, a = .register r) ∧ s.inq = [] ∧ s.ineof = false) := by
  rcases h1 : regSlot s 1 a with e | r
  · exact .inl (by simp only [execInp, h1]; exact finish_next _ _ _)
  obtain ⟨hx, rfl⟩ := regSlot_eq_ok.1 h1
  rcases hq : s.inTake with _ | ⟨b, u⟩
  · by_cases he : s.inEof = true
    · exact .inl (by simp only [execInp, h1, hq, he, if_true]; exact finish_next _ _ _)
    · have hn := inTake_eq_none.1 hq
      exact .inr ⟨by simp [execInp, h1, hq, he], hx, ⟨r, rfl⟩, hn, by simpa [inEof_iff, hn] using he⟩
  · exact .inl (by simp only [execInp, h1, hq]; exact finish_next _ _ _)

end PerInstruction

/-- Everything an instruction can do: if `exec` answers `t`, the change from `s` to `t` is one of the cases of `Change`. -/
theorem exec_change {i : Instr} {s t : State} (h : exec i s = .next t) : Change i s t := by
  cases i with
  | halt => exact execHalt_change h
  | set a b => exact execSet_change h
  | push a => exact execPush_change h
  | pop a => exact execPop_change h
  | eq a b c => exact execRVV_change h rfl (fun _ => rfl) (fun _ => rfl) (fun _ => rfl)
  | gt a b c => exact execRVV_change h rfl (fun _ => rfl) (fun _ => rfl) (fun _ => rfl)
  | jmp a => exact execJmp_change h
  | jt a b => exact execJt_change h
  | jf a b => exact execJf_change h
  | add a b c => exact execRVV_change h rfl (fun _ => rfl) (fun _ => rfl) (fun _ => rfl)
  | mult a b c => exact execRVV_change h rfl (fun _ => rfl) (fun _ => rfl) (fun _ => rfl)
  | mod a b c => exact execMod_change h
  | and a b c => exact execRVV_change h rfl (fun _ => rfl) (fun _ => rfl) (fun _ => rfl)
  | or a b c => exact execRVV_change h rfl (fun _ => rfl) (fun _ => rfl) (fun _ => rfl)
  | not a b => exact execNot_change h
  | rmem a b => exact execRmem_change h
  | wmem a b => exact execWmem_change h
  | call a => exact execCall_change h
  | ret => exact execRet_change h
  | out a => exact execOut_change h
  | inp a => exact execInp_change h
  | noop => exact execNoop_change h

/-- Every instruction has a next state in every state, but for a held `in`. -/
theorem exec_next_or_held (i : Instr) (s : State) :
    (∃ t, exec i s = .next t) ∨
    (exec i s = .fault .heldForInput ∧ s.operandExists 1 = true ∧ (∃ r, i = .inp (.register r)) ∧ s.inq = [] ∧ s.ineof = false) := by
  cases i with
  | inp a => simpa [exec] using execInp_next_or_held (a := a) (s := s)
  | _ => exact .inl (by first | exact finish_next _ _ _ | exact ⟨_, rfl⟩)

end Sys2Proof.Machine
end

