-- ==== Sys2Proof/Laws/PerInstr.lean ====
section
/-! SUPPORT. Per instruction: the length the opcode word fixes (R62) is the length of the instruction's encoding. -/

namespace Sys2Proof.Laws

/-- The operand count of the opcode word (R62, R66) is the number of operand words the instruction is encoded with. -/
def OpcodeLength.Statement (i : Instr) : Prop := operandCount i.opcode = some i.operands.length

theorem OpcodeLength.halt : OpcodeLength.Statement .halt := rfl
theorem OpcodeLength.set (a b : Operand) : OpcodeLength.Statement (.set a b) := rfl
theorem OpcodeLength.push (a : Operand) : OpcodeLength.Statement (.push a) := rfl
theorem OpcodeLength.pop (a : Operand) : OpcodeLength.Statement (.pop a) := rfl
theorem OpcodeLength.eq (a b c : Operand) : OpcodeLength.Statement (.eq a b c) := rfl
theorem OpcodeLength.gt (a b c : Operand) : OpcodeLength.Statement (.gt a b c) := rfl
theorem OpcodeLength.jmp (a : Operand) : OpcodeLength.Statement (.jmp a) := rfl
theorem OpcodeLength.jt (a b : Operand) : OpcodeLength.Statement (.jt a b) := rfl
theorem OpcodeLength.jf (a b : Operand) : OpcodeLength.Statement (.jf a b) := rfl
theorem OpcodeLength.add (a b c : Operand) : OpcodeLength.Statement (.add a b c) := rfl
theorem OpcodeLength.mult (a b c : Operand) : OpcodeLength.Statement (.mult a b c) := rfl
theorem OpcodeLength.mod (a b c : Operand) : OpcodeLength.Statement (.mod a b c) := rfl
theorem OpcodeLength.and (a b c : Operand) : OpcodeLength.Statement (.and a b c) := rfl
theorem OpcodeLength.or (a b c : Operand) : OpcodeLength.Statement (.or a b c) := rfl
theorem OpcodeLength.not (a b : Operand) : OpcodeLength.Statement (.not a b) := rfl
theorem OpcodeLength.rmem (a b : Operand) : OpcodeLength.Statement (.rmem a b) := rfl
theorem OpcodeLength.wmem (a b : Operand) : OpcodeLength.Statement (.wmem a b) := rfl
theorem OpcodeLength.call (a : Operand) : OpcodeLength.Statement (.call a) := rfl
theorem OpcodeLength.ret : OpcodeLength.Statement .ret := rfl
theorem OpcodeLength.out (a : Operand) : OpcodeLength.Statement (.out a) := rfl
theorem OpcodeLength.inp (a : Operand) : OpcodeLength.Statement (.inp a) := rfl
theorem OpcodeLength.noop : OpcodeLength.Statement .noop := rfl

end Sys2Proof.Laws
end

