-- ==== Sys2Proof/Laws/Step.lean ====
section
/-! SUPPORT. What the fetch and a step can answer. -/

namespace Sys2Proof.Machine

/-- The fetch gives an instruction: there is an opcode word, and it decodes with the words after it. -/
theorem fetchInstr_eq_ok {s : State} {i : Instr} :
    s.fetchInstr = .ok i ↔
      s.pc.toNat < memWords ∧ decode (s.mem.peek s.pc.toNat) (s.wordAt 1) (s.wordAt 2) (s.wordAt 3) = .ok i := by
  by_cases hpc : s.pc.toNat < memWords
  · rcases hd : decode (s.mem.peek s.pc.toNat) (s.wordAt 1) (s.wordAt 2) (s.wordAt 3) with e | j
    · simp only [memWords] at hpc; simp [State.fetchInstr, memRead, hpc, hd]
    · simp only [memWords] at hpc; simp [State.fetchInstr, memRead, hpc, hd]
  · simp only [memWords] at hpc; simp [State.fetchInstr, memRead, hpc]

/-- The fetch faults: there is no opcode word, or it is no opcode. -/
theorem fetchInstr_eq_error {s : State} {e : Option Word × Raised} :
    s.fetchInstr = .error e ↔
      (memWords ≤ s.pc.toNat ∧ e = (none, ⟨0, .addressOutOfRange s.pc .fetch⟩)) ∨
      (s.pc.toNat < memWords ∧ nOpcodes ≤ (s.mem.peek s.pc.toNat).toNat ∧
        e = (some (s.mem.peek s.pc.toNat), ⟨1, .unknownOpcode (s.mem.peek s.pc.toNat)⟩)) := by
  by_cases hpc : s.pc.toNat < memWords
  · rcases hd : decode (s.mem.peek s.pc.toNat) (s.wordAt 1) (s.wordAt 2) (s.wordAt 3) with d | j
    · have hop := (decode_eq_error.1 hd).1
      simp only [memWords, nOpcodes] at hpc hop
      simp [State.fetchInstr, memRead, hpc, hd, hop, eq_comm]
    · have hop := (decode_eq_ok hd).2.2
      simp only [memWords, nOpcodes] at hpc hop
      simp [State.fetchInstr, memRead, hpc, hd, hop]
  · simp only [memWords] at hpc
    have hpc' : 32768 ≤ s.pc.toNat := by omega
    simp [State.fetchInstr, memRead, hpc, hpc', eq_comm]

/-- A running core executes the instruction it fetches. -/
theorem step_of_fetch {s : State} {i : Instr} (hs : s.status = .running) (hf : s.fetchInstr = .ok i) : step s = exec i s := by
  simp [step, hs, hf]

/-- A running core takes the fault of its opcode fetch or dispatch. -/
theorem step_of_fetch_error {s : State} {e : Option Word × Raised} (hs : s.status = .running) (hf : s.fetchInstr = .error e) :
    step s = .next (s.raise e.1 e.2) := by
  simp [step, hs, hf]

/-- Everything a step can do: the core is running, and the fetch faulted or an instruction was executed. -/
theorem step_cases {s t : State} (h : step s = .next t) :
    s.status = .running ∧
      ((∃ e, s.fetchInstr = .error e ∧ t = s.raise e.1 e.2) ∨ ∃ i, s.fetchInstr = .ok i ∧ Change i s t) := by
  simp only [step] at h
  split at h
  · cases h
  · cases h
  next hs =>
    refine ⟨hs, ?_⟩
    split at h
    next i hf => exact .inr ⟨i, hf, exec_change h⟩
    next e hf => exact .inl ⟨e, hf, by simpa [eq_comm] using h⟩

end Sys2Proof.Machine
end

