-- ==== Sys2Proof/Tests/Slice0.lean ====
section
/-! SUPPORT. The model's own tests: the smoke test of the well-formedness checks, decoding, single steps against the vectors of
spec/95_test_vectors.md (each test names its vector; where the vector would write the value the destination already holds, the start
value is another), and for every statement of Obligations.lean with hypotheses a witness that meets them. -/

namespace Sys2Proof.Tests

open Sys2Proof.Machine

/-! ## Well-formedness -/

/-- `invalid` around a word that is a literal or a register reference is the class of no word (R63). -/
theorem test_canonical_refuses :
    (Instr.push (.invalid 32775)).canonical = false ∧ (Instr.jmp (.invalid 0)).canonical = false ∧
    (Instr.push (.invalid 32776)).canonical = true := by decide

/-- A literal or an invalid word in a register slot is ill formed (R64, R68). -/
theorem test_wellFormed_refuses_register_slot :
    (Instr.set (.literal 5) (.literal 1)).wellFormed = false ∧ (Instr.pop (.invalid 32776)).wellFormed = false ∧
    (Instr.set (.register 7) (.literal 1)).wellFormed = true := by decide

/-- An invalid word as a value is ill formed, also where the effect would not use it (R64, R68). -/
theorem test_wellFormed_refuses_value :
    (Instr.jt (.literal 0) (.invalid 40000)).wellFormed = false ∧ (Instr.wmem (.invalid 65535) (.literal 1)).wellFormed = false ∧
    (Instr.wmem (.literal 0) (.register 0)).wellFormed = true := by decide

/-! ## Decoding: the words are written from the rows of R66 and the classes of R63 -/

/-- What the decoder reads, and the words after it. -/
def decoded (ws : List Word) : Option (Instr × List Word) :=
  match decodeWords ws with
  | .ok p => some p
  | .error _ => none

theorem test_decode_f0 :
    decoded [0] = some (.halt, []) ∧
    decoded [18] = some (.ret, []) ∧
    decoded [21] = some (.noop, []) :=
  by decide

theorem test_decode_reg :
    decoded [3, 32768] = some (.pop (.register 0), []) ∧
    decoded [20, 32775] = some (.inp (.register 7), []) ∧
    decoded [20, 7] = some (.inp (.literal 7), []) :=
  by decide

theorem test_decode_val :
    decoded [2, 32767] = some (.push (.literal 32767), []) ∧
    decoded [6, 32769] = some (.jmp (.register 1), []) ∧
    decoded [17, 40000] = some (.call (.invalid 40000), []) ∧
    decoded [19, 65] = some (.out (.literal 65), []) :=
  by decide

theorem test_decode_reg_val :
    decoded [1, 32771, 1234] = some (.set (.register 3) (.literal 1234), []) ∧
    decoded [14, 32768, 32769] = some (.not (.register 0) (.register 1), []) ∧
    decoded [15, 32774, 4] = some (.rmem (.register 6) (.literal 4), []) :=
  by decide

theorem test_decode_val_val :
    decoded [7, 32768, 50] = some (.jt (.register 0) (.literal 50), []) ∧
    decoded [8, 1, 32776] = some (.jf (.literal 1) (.invalid 32776), []) ∧
    decoded [16, 32769, 32770] = some (.wmem (.register 1) (.register 2), []) :=
  by decide

theorem test_decode_compare :
    decoded [4, 32768, 32769, 5] = some (.eq (.register 0) (.register 1) (.literal 5), []) ∧
    decoded [5, 32770, 32767, 32771] = some (.gt (.register 2) (.literal 32767) (.register 3), []) :=
  by decide

theorem test_decode_arith :
    decoded [9, 32768, 32769, 4] = some (.add (.register 0) (.register 1) (.literal 4), []) ∧
    decoded [10, 32769, 300, 200] = some (.mult (.register 1) (.literal 300) (.literal 200), []) ∧
    decoded [11, 32768, 17, 5] = some (.mod (.register 0) (.literal 17) (.literal 5), []) :=
  by decide

theorem test_decode_bitwise :
    decoded [12, 32773, 12, 10] = some (.and (.register 5) (.literal 12) (.literal 10), []) ∧
    decoded [13, 32772, 0, 32768] = some (.or (.register 4) (.literal 0) (.register 0), []) :=
  by decide

/-- The opcode word is matched on all 16 bits and never resolved (R65); a missing operand word is no operand. -/
theorem test_decode_refuses :
    decodeWords [22] = .error (.unknownOpcode 22) ∧ decodeWords [32768] = .error (.unknownOpcode 32768) ∧
    decodeWords [65535] = .error (.unknownOpcode 65535) ∧ decodeWords [1, 32768] = .error (.truncated 1) ∧
    decodeWords [] = .error .noOpcode := by decide

/-- The operand words are in the order `a`, `b`, `c`, the first at the lowest address (R60). -/
theorem test_encode_order : encode (.add (.register 0) (.register 1) (.literal 4)) = [9, 32768, 32769, 4] := by decide

/-- The table's numbering: the opcode in bits 15..0, operand words of zeros above. -/
theorem test_decodeTableWord : decodeTableWord 16 9 = some (.add (.literal 0) (.literal 0) (.literal 0)) := by decide

/-! ## Single steps -/

/-- The start state of the vectors: the image in memory, the input empty and ended. -/
def start (img : List Word) : State := { State.reset with mem := Memory.place [] 0 img, ineof := true }

/-- A start state with the words at `addr` and `pc` there. -/
def startAt (addr : Word) (img : List Word) : State := { start [] with mem := Memory.place [] addr.toNat img, pc := addr }

/-- The next state of a step. -/
def stepped (s : State) : Option State :=
  match step s with
  | .next t => some t
  | _ => none

/-- A read of the next state. -/
def seen {α : Type} (s : State) (f : State → α) : Option α := (stepped s).map f

/-- The status of a fault. -/
def faulted (cause : FaultCause) (pc0 op : Word) : Status := .faulted ⟨cause, pc0, some op⟩

/-- Vector V162. -/
theorem test_halt :
    seen ({ start [0] with stack := [1, 2] }) (fun t => (t.status, t.pc, t.stack)) =
      some (.halted .haltInstr, 1, [1, 2]) := by decide

/-- Vector V161: nothing but `pc` changed. -/
theorem test_noop : seen (start [21]) (fun t => t) = some { start [21] with pc := 1 } := by decide

/-- Vector V12. -/
theorem test_set_verbatim :
    seen (State.setReg (start [1, 32769, 32768]) 0 40000) (fun t => (t.reg 1, t.pc)) = some (40000, 3) := by decide

/-- Vector V14: not InvalidAddress. -/
theorem test_set_bad_register :
    seen (start [1, 32776, 1]) (fun t => (t.status, t.pc)) = some (faulted (.invalidRegister 32776) 0 1, 2) := by decide

/-- Vector V17, on a stack that holds a word. -/
theorem test_push :
    seen (State.setReg ({ start [2, 32770] with stack := [9] }) 2 65535) (fun t => (t.stack, t.pc)) =
      some ([9, 65535], 2) := by decide

/-- Vector V19. -/
theorem test_push_full :
    seen ({ start [2, 1] with stack := [9], params := ⟨some 1, false⟩ }) (fun t => (t.status, t.stack)) =
      some (faulted (.stackOverflow 1) 0 2, [9]) := by decide

/-- Vector V20. -/
theorem test_pop :
    seen ({ start [3, 32768] with stack := [7, 9] }) (fun t => (t.reg 0, t.stack, t.pc)) = some (9, [7], 2) := by decide

/-- Vector V21. -/
theorem test_pop_empty : seen (start [3, 32768]) (fun t => (t.status, t.pc)) = some (faulted .stackUnderflow 0 3, 2) := by decide

/-- Vector V32. -/
theorem test_eq_own_destination :
    seen (State.setReg (start [4, 32768, 32768, 32768]) 0 77) (fun t => t.reg 0) = some 1 := by decide

/-- Vector V33. -/
theorem test_eq_not_reduced :
    seen (State.setReg (State.setReg (start [4, 32768, 32769, 0]) 0 5) 1 32768) (fun t => (t.reg 0, t.pc)) =
      some (0, 4) := by decide

/-- Vector V38. -/
theorem test_gt_strict : seen (State.setReg (start [5, 32768, 3, 3]) 0 5) (fun t => t.reg 0) = some 0 := by decide

/-- Vector V39. -/
theorem test_gt_unsigned : seen (State.setReg (start [5, 32768, 32769, 32767]) 1 32768) (fun t => t.reg 0) = some 1 := by decide

/-- Vector V41. -/
theorem test_jmp : seen (State.setReg (start [6, 32769]) 1 12) (fun t => t.pc) = some 12 := by decide

/-- Vector V42. -/
theorem test_jmp_invalid :
    seen (start [6, 32776]) (fun t => (t.status, t.pc)) = some (faulted (.invalidAddress 32776) 0 6, 2) := by decide

/-- Vector V50. -/
theorem test_jt_taken :
    seen (State.setReg (State.setReg (start [7, 32768, 32769]) 0 32768) 1 9) (fun t => t.pc) = some 9 := by decide

/-- Vector V48. -/
theorem test_jt_untaken_validates :
    seen (start [7, 0, 40000]) (fun t => (t.status, t.pc)) = some (faulted (.invalidAddress 40000) 0 7, 3) := by decide

/-- Vector V46. -/
theorem test_jf_taken : seen (startAt 10 [8, 32768, 50]) (fun t => t.pc) = some 50 := by decide

/-- Vector V47. -/
theorem test_jf_untaken : seen (State.setReg (startAt 10 [8, 32768, 50]) 0 7) (fun t => t.pc) = some 13 := by decide

/-- Vector V52. -/
theorem test_call : seen (startAt 5 [17, 20]) (fun t => (t.stack, t.pc)) = some ([7], 20) := by decide

/-- Vector V56. -/
theorem test_call_at_top : seen (startAt 32766 [17, 100]) (fun t => (t.stack, t.pc)) = some ([32768], 100) := by decide

/-- Vector V57. -/
theorem test_ret :
    seen ({ start [18] with stack := [7] }) (fun t => (t.pc, t.stack, t.status)) = some (7, [], .running) := by decide

/-- Vector V58. -/
theorem test_ret_empty : seen (start [18]) (fun t => (t.pc, t.status)) = some (1, .halted .retEmptyStack) := by decide

/-- Vector V73. -/
theorem test_add_aliased :
    seen (State.setReg (start [9, 32768, 32768, 32768]) 0 20000) (fun t => (t.reg 0, t.pc)) = some (7232, 4) := by decide

/-- Vector V76. -/
theorem test_add_wraps :
    seen (State.setReg (State.setReg (start [9, 32768, 32769, 32770]) 1 65535) 2 65535) (fun t => t.reg 0) =
      some 32766 := by decide

/-- Vector V77. -/
theorem test_mult : seen (start [10, 32769, 300, 200]) (fun t => (t.reg 1, t.reg 0)) = some (27232, 0) := by decide

/-- Vector V82. -/
theorem test_mult_wide :
    seen (State.setReg (State.setReg (start [10, 32768, 32769, 32770]) 1 65535) 2 65535) (fun t => t.reg 0) = some 1 := by decide

/-- Vector V94. -/
theorem test_mod_not_reduced : seen (State.setReg (start [11, 32768, 32769, 3]) 1 32770) (fun t => t.reg 0) = some 1 := by decide

/-- Vector V91. -/
theorem test_mod_zero :
    seen (State.setReg (State.setReg (State.setReg (start [11, 32768, 32769, 32770]) 0 9) 1 33) 2 0) (fun t => (t.status, t.reg 0, t.pc)) =
      some (faulted (.arithmeticError 33) 0 11, 9, 4) := by decide

/-- Vector V96. -/
theorem test_and : seen (start [12, 32768, 12, 10]) (fun t => t.reg 0) = some 8 := by decide

/-- Vector V99. -/
theorem test_and_clears_bit15 :
    seen (State.setReg (State.setReg (start [12, 32768, 32769, 32770]) 1 65535) 2 65535) (fun t => t.reg 0) =
      some 32767 := by decide

/-- Vector V100. -/
theorem test_or : seen (start [13, 32768, 12, 10]) (fun t => t.reg 0) = some 14 := by decide

/-- Vector V103. -/
theorem test_or_clears_bit15 : seen (State.setReg (start [13, 32768, 32769, 0]) 1 32768) (fun t => t.reg 0) = some 0 := by decide

/-- Vector V106. -/
theorem test_not : seen (start [14, 32768, 21845]) (fun t => (t.reg 0, t.pc)) = some (10922, 3) := by decide

/-- Vector V109. -/
theorem test_not_bit15 : seen (State.setReg (start [14, 32768, 32769]) 1 32768) (fun t => t.reg 0) = some 32767 := by decide

/-- Vector V122. -/
theorem test_rmem : seen (State.setReg (start [15, 32768, 32768]) 0 2) (fun t => t.reg 0) = some 32768 := by decide

/-- Vector V126. -/
theorem test_rmem_no_second_resolution :
    seen (State.setReg (State.setReg (start [15, 32768, 32769]) 0 5) 1 32768) (fun t => (t.status, t.reg 0)) =
      some (faulted (.addressOutOfRange 32768 .read) 0 15, 5) := by decide

/-- Vector V131. -/
theorem test_wmem_top :
    seen (State.setReg (start [16, 32767, 32768]) 0 65535) (fun t => (t.mem.peek 32767, t.reg 0, t.pc)) =
      some (65535, 65535, 3) := by decide

/-- Vector V135. -/
theorem test_wmem_own_opcode : seen (start [16, 0, 21]) (fun t => (t.mem, t.pc)) = some ([(0, 21), (2, 21)], 3) := by decide

/-- Vector V143. -/
theorem test_out_low_byte : seen (start [19, 321]) (fun t => (t.out, t.pc)) = some ([65], 2) := by decide

/-- Vector V146. -/
theorem test_out_invalid :
    seen (start [19, 32776]) (fun t => (t.status, t.out)) = some (faulted (.invalidAddress 32776) 0 19, []) := by decide

/-- Vector V147. -/
theorem test_in :
    seen (State.setReg ({ start [20, 32768] with inq := [97, 98] }) 0 65535) (fun t => (t.reg 0, t.inq, t.pc)) =
      some (97, [98], 2) := by decide

/-- Vector V151. -/
theorem test_in_fatal_end :
    seen (State.setReg ({ start [20, 32768] with params := ⟨none, true⟩ }) 0 77) (fun t => (t.status, t.reg 0)) =
      some (faulted .endOfInput 0 20, 77) := by decide

/-! The fetch, the loader and the host's moves. -/

/-- Vector V2. -/
theorem test_opcode_not_resolved :
    seen (start [32768]) (fun t => (t.status, t.pc)) = some (faulted (.unknownOpcode 32768) 0 32768, 1) := by decide

/-- Vector V5: after the `noop` in the top cell `pc` is 32768, and the next fetch faults. -/
theorem test_pc_at_top : seen (startAt 32767 [21]) (fun t => (t.pc, t.status)) = some (32768, .running) ∧
    seen ({ start [] with pc := 32768 }) (fun t => (t.pc, t.status)) =
      some (32768, .faulted ⟨.addressOutOfRange 32768 .fetch, 32768, none⟩) := by decide

/-- Vector V7. -/
theorem test_no_wrap : seen (startAt 32766 [1, 32768]) (fun t => (t.status, t.pc, t.reg 0)) =
    some (faulted (.addressOutOfRange 32768 .fetch) 32766 1, 32768, 0) := by decide

/-- Vector V34. -/
theorem test_first_operand_reported : seen (start [4, 32768, 40000, 50000]) (fun t => (t.status, t.pc)) =
    some (faulted (.invalidAddress 40000) 0 4, 3) := by decide

/-- Vector V152: held, no step, and the byte the host then delivers. -/
theorem test_held : State.held { start [20, 32768] with ineof := false } = true ∧
    stepped { start [20, 32768] with ineof := false } = none ∧
    seen { start [20, 32768] with ineof := false, inq := [120] } (fun t => (t.reg 0, t.pc)) = some (120, 2) := by decide

/-- R41: word `i` of the image is `byte[2i] + 256 * byte[2i+1]`; an odd number of bytes is no image. -/
theorem test_imageOfBytes : imageOfBytes [9, 0, 0, 128, 1, 2] = some [9, 32768, 513] ∧ imageOfBytes [9, 0, 0] = none := by decide

/-- The row of `ret`, placed where a faulted core past the top of memory fetches, is the next step's instruction. -/
theorem test_withFetchWord :
    seen (State.withFetchWord { start [] with pc := 32768, status := .faulted ⟨.stackUnderflow, 0, some 3⟩ } 16 18)
      (fun t => (t.status, t.pc)) = some (.halted .retEmptyStack, 1) := by decide

/-! ## Witnesses: states and operands that meet the hypotheses of the statements, at the boundary where a clause has one -/

/-- The instruction answers a next state. -/
def completes (s : State) (i : Instr) : Bool :=
  match exec i s with
  | .next _ => true
  | _ => false

theorem completes_iff {s : State} {i : Instr} : completes s i = true ↔ ∃ t, exec i s = .next t := by
  unfold completes
  cases exec i s <;> simp

/-- The step answers a next state, and it satisfies `p`. -/
def stepsTo (s : State) (p : State → Bool) : Bool :=
  match step s with
  | .next t => p t
  | _ => false

theorem stepsTo_iff {s : State} {p : State → Bool} : stepsTo s p = true ↔ ∃ t, step s = .next t ∧ p t = true := by
  unfold stepsTo
  cases step s <;> simp

/-- A running core at `addr`, register 0 holding 65535 and register 1 holding 32768, memory 0. -/
def edge (addr : Word) : State := State.setReg (State.setReg (startAt addr []) 0 65535) 1 32768

theorem witness_EncodeThenDecodeGivesBack :
    (Instr.add (.register 7) (.literal 32767) (.invalid 32776)).canonical = true ∧ (Instr.push (.invalid 65535)).canonical = true := by
  decide

theorem witness_DecodeThenEncodeGivesBack : decodeWords [21, 22] = .ok (.noop, [22]) := by decide

theorem witness_UnknownOpcodeExactlyFrom22 :
    decodeWords [22, 0] = .error (.unknownOpcode 22) ∧ 22 ≤ (22 : Word).toNat ∧ ¬ 22 ≤ (21 : Word).toNat := by decide

theorem witness_OperandWordResolves :
    classify 32767 = .literal 32767 ∧ classify 32768 = .register 0 ∧ classify 32775 = .register 7 ∧
    classify 32776 = .invalid 32776 ∧ classify 65535 = .invalid 65535 := by decide

theorem witness_StepRunsDecodedInstr :
    (startAt 32767 [21]).status = .running ∧ (startAt 32767 [21]).pc.toNat < 32768 ∧
    decode ((startAt 32767 [21]).mem.peek 32767) ((startAt 32767 [21]).mem.peek 32768) ((startAt 32767 [21]).mem.peek 32769)
      ((startAt 32767 [21]).mem.peek 32770) = .ok .noop := by decide

theorem witness_EndedCoreHasNoStep :
    { start [] with status := .halted .haltInstr }.status = .halted .haltInstr ∧
    { start [] with status := faulted .stackUnderflow 0 3 }.status = faulted .stackUnderflow 0 3 := by decide

theorem witness_RunningCoreStepsUnlessHeld :
    (edge 65535).status = .running ∧ (edge 65535).held = false ∧
    State.held { startAt 32766 [20, 32775] with ineof := false } = true := by decide

/-- A faulted core from which the host takes a byte of output. -/
theorem witness_EndedRunChangesNothing :
    { start [] with status := faulted .stackUnderflow 0 3, out := [65] }.status ≠ .running ∧
    Run { start [] with status := faulted .stackUnderflow 0 3, out := [65] } { start [] with status := faulted .stackUnderflow 0 3 } :=
  ⟨by decide, .host _ _ .takeOutput .start (by decide)⟩

theorem witness_UnknownOpcodeFaults :
    (startAt 32767 [22]).status = .running ∧ (startAt 32767 [22]).pc.toNat < 32768 ∧
    22 ≤ ((startAt 32767 [22]).mem.peek (startAt 32767 [22]).pc.toNat).toNat ∧
    stepsTo (startAt 32767 [22]) (fun t => decide (t.status = faulted (.unknownOpcode 22) 32767 22)) = true := by decide

theorem witness_OpcodeFetchPastTopFaults : (edge 32768).status = .running ∧ 32768 ≤ (edge 32768).pc.toNat := by decide

theorem witness_TruncatedInstrFaults :
    (startAt 32766 [1, 32768]).status = .running ∧
    (startAt 32766 [1, 32768]).fetchInstr = .ok (.set (.register 0) (.literal 0)) ∧
    2 ≤ (Instr.set (.register 0) (.literal 0)).operands.length ∧ (startAt 32766 [1, 32768]).pc.toNat + 2 = 32768 ∧
    (∀ p ∈ (Instr.set (.register 0) (.literal 0)).operands.take 1, p.1.accepts p.2 = true) := by decide

/-- The second operand is illegal and its word lies in memory (OperandFaults, the first clause of FirstIllegalOperandReported); the
second operand's word lies past the top (the second clause). -/
theorem witness_FirstIllegalOperandReported :
    (Instr.jt (.literal 0) (.invalid 32776)).operands = [(.value, .literal 0)] ++ (.value, .invalid 32776) :: [] ∧
    Role.value.accepts (.literal 0) = true ∧ Role.value.accepts (.invalid 32776) = false ∧
    (edge 32765).operandExists 2 = true ∧ (edge 32766).operandExists 1 = true ∧ (edge 32766).operandExists 2 = false := by decide

theorem witness_SetCopiesValue :
    (edge 32765).valueOf (.register 0) = some 65535 ∧ (edge 32765).operandExists 2 = true := by decide

theorem witness_PushAppendsValue :
    (edge 32766).valueOf (.literal 32767) = some 32767 ∧ (edge 32766).operandExists 1 = true ∧
    (edge 32766).params.stackCapacity ≠ some (edge 32766).stack.length ∧
    { edge 32766 with params := ⟨some 0, false⟩ }.params.stackCapacity = some (edge 32766).stack.length := by decide

theorem witness_PopTakesTop :
    (edge 32766).operandExists 1 = true ∧ { edge 32766 with stack := [7, 9] }.stack = [7] ++ [9] ∧ (edge 32766).stack = [] := by decide

theorem witness_CompareWritesTruth :
    (edge 32764).valueOf (.register 0) = some 65535 ∧ (edge 32764).valueOf (.literal 32767) = some 32767 ∧
    (edge 32764).operandExists 3 = true := by decide

theorem witness_JmpLoadsTarget :
    (edge 32766).valueOf (.register 1) = some 32768 ∧ (edge 32766).operandExists 1 = true ∧ 32768 ≤ (32768 : Word).toNat ∧
    (edge 32766).status = .running := by decide

theorem witness_ConditionalJumps :
    (edge 32765).valueOf (.literal 0) = some 0 ∧ (edge 32765).valueOf (.register 1) = some 32768 ∧
    (edge 32765).operandExists 2 = true := by decide

theorem witness_CallPushesReturnAddress :
    (edge 32766).valueOf (.literal 0) = some 0 ∧ (edge 32766).operandExists 1 = true ∧
    (edge 32766).params.stackCapacity ≠ some (edge 32766).stack.length ∧
    { edge 32766 with params := ⟨some 0, false⟩ }.params.stackCapacity = some (edge 32766).stack.length := by decide

theorem witness_RetPopsOrHalts : { edge 0 with stack := [7, 32768] }.stack = [7] ++ [32768] ∧ (edge 0).stack = [] := by decide

theorem witness_AddMultModulo_AndOrBitwise :
    (edge 32764).valueOf (.register 0) = some 65535 ∧ (edge 32764).valueOf (.register 1) = some 32768 ∧
    (edge 32764).operandExists 3 = true := by decide

theorem witness_ModRemainderOrFault :
    (edge 32764).valueOf (.register 0) = some 65535 ∧ (edge 32764).valueOf (.literal 0) = some 0 ∧
    (edge 32764).valueOf (.literal 1) = some 1 ∧ (1 : Word) ≠ 0 ∧ (edge 32764).operandExists 3 = true := by decide

theorem witness_NotComplements : (edge 32765).valueOf (.register 1) = some 32768 ∧ (edge 32765).operandExists 2 = true := by decide

theorem witness_RmemLoadsCell :
    (edge 32765).valueOf (.literal 32767) = some 32767 ∧ (32767 : Word).toNat < 32768 ∧
    (edge 32765).valueOf (.register 1) = some 32768 ∧ 32768 ≤ (32768 : Word).toNat ∧ (edge 32765).operandExists 2 = true := by decide

theorem witness_WmemStoresCell :
    (edge 32765).mem.wf = true ∧ (edge 32765).valueOf (.literal 32767) = some 32767 ∧ (32767 : Word).toNat < 32768 ∧
    (edge 32765).valueOf (.register 1) = some 32768 ∧ 32768 ≤ (32768 : Word).toNat ∧ (edge 32765).operandExists 2 = true := by decide

theorem witness_OutAppendsLowByte : (edge 32766).valueOf (.register 0) = some 65535 ∧ (edge 32766).operandExists 1 = true := by decide

theorem witness_InTakesOldestByte :
    (edge 32766).operandExists 1 = true ∧ { edge 32766 with inq := [97, 98] }.inq = 97 :: [98] ∧
    ((edge 32766).inq = [] ∧ (edge 32766).ineof = true ∧ (edge 32766).params.inEofFatal = false) ∧
    { edge 32766 with params := ⟨none, true⟩ }.params.inEofFatal = true ∧ { edge 32766 with ineof := false }.ineof = false := by decide

theorem witness_HoldIsLiftedByHost :
    State.held { startAt 32766 [20, 32775] with ineof := false } = true ∧ (startAt 32766 [20, 32775]).params.inEofFatal = false ∧
    State.held { startAt 32766 [20, 32775] with ineof := false, params := ⟨none, true⟩ } = true := by decide

theorem witness_RegisterWritersFrame :
    [Instr.set (.register 0) (.literal 5), .eq (.register 0) (.register 1) (.literal 3), .gt (.register 0) (.register 1) (.literal 3),
      .add (.register 0) (.register 1) (.literal 3), .mult (.register 0) (.register 1) (.literal 3),
      .mod (.register 0) (.register 1) (.literal 3), .and (.register 0) (.register 1) (.literal 3),
      .or (.register 0) (.register 1) (.literal 3), .not (.register 0) (.literal 5), .rmem (.register 0) (.literal 5)].all
      (completes (edge 0)) = true := by decide

theorem witness_PushCallFrame : [Instr.push (.register 0), .call (.register 0)].all (completes (edge 0)) = true := by decide

theorem witness_PopRetFrame :
    [Instr.pop (.register 0), .ret].all (completes { edge 0 with stack := [7] }) = true ∧ completes (edge 0) .ret = true := by decide

theorem witness_JumpHaltNoopFrame :
    [Instr.jmp (.register 0), .jt (.register 0) (.literal 3), .jf (.register 0) (.literal 3), .noop, .halt].all
      (completes (edge 0)) = true := by decide

theorem witness_WmemFrame :
    (edge 0).mem.wf = true ∧ completes (edge 0) (.wmem (.literal 32767) (.literal 5)) = true ∧
    (edge 0).valueOf (.literal 32767) = some 32767 ∧
    completes (edge 0) (.wmem (.invalid 32776) (.literal 5)) = true ∧ (edge 0).valueOf (.invalid 32776) = none := by decide

theorem witness_InOutFrame : [Instr.out (.register 0), .inp (.register 0)].all (completes { edge 0 with inq := [97] }) = true := by decide

theorem witness_RegisterWrittenOnlyByItsName :
    stepsTo (start [1, 32775, 5]) (fun t => decide (t.reg 7 ≠ (start [1, 32775, 5]).reg 7)) = true := by decide

theorem witness_CellWrittenOnlyByWmem :
    (start [16, 32767, 5]).mem.wf = true ∧
    stepsTo (start [16, 32767, 5]) (fun t => decide (t.mem.peek 32767 ≠ (start [16, 32767, 5]).mem.peek 32767)) = true := by decide

theorem witness_StackMovesOnlyAtTop :
    stepsTo (start [2, 5]) (fun t => decide (t.stack = [] ++ [5])) = true ∧
    stepsTo { start [18] with stack := [7] } (fun t => decide ([7] = t.stack ++ [7])) = true := by decide

theorem witness_StreamsOnlyByInOut_OutputNeverReadBack :
    stepsTo { start [19, 65] with out := [64] } (fun t => decide (t.out = [64] ++ [65])) = true ∧
    stepsTo { start [20, 32768] with inq := [97, 98] } (fun t => decide (t.inq = [98])) = true := by decide

theorem witness_DeliveryCommutesWithStep :
    stepsTo { start [20, 32768] with inq := [97], ineof := false } (fun t => decide (t.reg 0 = 97)) = true ∧
    State.hostMove { start [20, 32768] with inq := [97], ineof := false } (.deliver 98) =
      some { start [20, 32768] with inq := [97, 98], ineof := false } := by decide

theorem witness_RunEndsInThreeWays :
    stepsTo (start [0]) (fun t => decide (t.status = .halted .haltInstr)) = true ∧
    stepsTo (start [18]) (fun t => decide (t.status = .halted .retEmptyStack)) = true ∧
    stepsTo (start [3, 32768]) (fun t => decide (t.status = faulted .stackUnderflow 0 3)) = true := by decide

theorem witness_FaultsArePrecise_FaultKindsFollowTable :
    stepsTo (edge 32768) (fun t => decide (t.status = .faulted ⟨.addressOutOfRange 32768 .fetch, 32768, none⟩)) = true ∧
    stepsTo (start [11, 32768, 17, 0]) (fun t => decide (t.status = faulted (.arithmeticError 17) 0 11)) = true := by decide

theorem witness_ComputedWordsAreBelow32768 :
    (∃ t, exec (.add (.register 0) (.register 0) (.register 1)) (edge 0) = .next t ∧ t.status = .running) ∧
    ∃ t, exec (.inp (.register 0)) { edge 0 with inq := [255] } = .next t ∧ t.status = .running :=
  ⟨⟨_, rfl, by decide⟩, ⟨_, rfl, by decide⟩⟩

theorem witness_NotTwiceRestores : (edge 32762).pc.toNat + 5 < 32768 := by decide

/-- The word stored is an instruction (`noop`), or an unknown opcode. -/
theorem witness_StoreSeenByNextFetch :
    (startAt 32764 [16, 32767, 21]).mem.wf = true ∧ (startAt 32764 [16, 32767, 21]).status = .running ∧
    (startAt 32764 [16, 32767, 21]).fetchInstr = .ok (.wmem (.literal 32767) (.literal 21)) ∧
    (startAt 32764 [16, 32767, 21]).valueOf (.literal 32767) = some 32767 ∧
    (startAt 32764 [16, 32767, 21]).valueOf (.literal 21) = some 21 ∧
    (32767 : Word).toNat = (startAt 32764 [16, 32767, 21]).pc.toNat + 3 ∧ decode 21 0 0 0 = .ok .noop ∧
    (startAt 32764 [16, 32767, 22]).fetchInstr = .ok (.wmem (.literal 32767) (.literal 22)) ∧
    (startAt 32764 [16, 32767, 22]).valueOf (.literal 22) = some 22 ∧ 22 ≤ (22 : Word).toNat := by decide

/-- `call 3` at 0, and a `ret` at 3. -/
theorem witness_CallThenRetReturns :
    ∃ s1, (start [17, 3, 0, 18]).fetchInstr = .ok (.call (.literal 3)) ∧ step (start [17, 3, 0, 18]) = .next s1 ∧
      StepsThrough (fun u => (start [17, 3, 0, 18]).sp + 1 ≤ u.sp) s1 s1 ∧
      s1.status = .running ∧ s1.fetchInstr = .ok .ret ∧ s1.sp = (start [17, 3, 0, 18]).sp + 1 :=
  ⟨{ start [17, 3, 0, 18] with stack := [2], pc := 3 }, by decide, by
    obtain ⟨t, ht, hp⟩ := stepsTo_iff (s := start [17, 3, 0, 18])
      (p := fun t => decide (t = { start [17, 3, 0, 18] with stack := [2], pc := 3 })) |>.1 (by decide)
    rw [ht, of_decide_eq_true hp],
    .refl (by decide), by decide, by decide, by decide⟩

theorem witness_StackIsLastInFirstOut : (edge 0).params.stackCapacity = none ∧ (edge 0).stack = [] := by decide

theorem witness_MemoryReadsWhatWasWritten :
    Memory.wf [(32767, 65535)] = true ∧ (32767 : Word).toNat < 32768 ∧ 32768 ≤ (32768 : Word).toNat := by decide

theorem witness_SameCellsSameMemory : Memory.wf [(0, 1), (32767, 65535)] = true := by decide

/-- The longest image (the second clause is met by one word more). -/
theorem witness_LaunchPlacesImage :
    (List.replicate 32768 (65535 : Word)).length ≤ 32768 ∧ 32768 < (List.replicate 32769 (65535 : Word)).length :=
  ⟨by rw [List.length_replicate], by rw [List.length_replicate]; decide⟩

theorem witness_HostMovesLeaveCoreAlone :
    State.hostMove State.reset (.deliver 97) = some { State.reset with inq := [97] } ∧
    State.hostMove State.reset .endInput = some { State.reset with ineof := true } ∧
    State.hostMove { State.reset with out := [4, 5] } .takeOutput = some { State.reset with out := [5] } := by decide

theorem witness_StepKeepsInv :
    (start [2, 5]).Inv ∧ stepsTo (start [2, 5]) (fun t => decide (t.stack = [5])) = true :=
  ⟨⟨by decide, by decide, by decide⟩, by decide⟩

/-- A launch, a step and a move of the host. -/
theorem witness_RunsFromLaunchKeepInv :
    ∃ s t, launch ⟨some 1, true⟩ [2, 5] = some s ∧ step s = .next t ∧ Run s { t with ineof := true } :=
  ⟨{ State.reset with params := ⟨some 1, true⟩, mem := [(0, 2), (1, 5)] }, _, by decide, rfl,
    .host _ _ .endInput (.step _ _ .start rfl) (by decide)⟩

end Sys2Proof.Tests
end

section
/-! PROOFS. What each case of `Change` does to one component of the state, said once per component. -/

namespace Sys2Proof.Machine

section RegOfUpdates
variable (s : State) (j : RegIdx) (v : Word) (n : Nat) (m : Memory) (st : Status) (b : Byte) (op : Option Word) (e : Raised)

@[simp] theorem reg_setPc : (s.setPc v).reg j = s.reg j := rfl
@[simp] theorem reg_advance : (s.advance n).reg j = s.reg j := rfl
@[simp] theorem reg_setStatus : (s.setStatus st).reg j = s.reg j := rfl
@[simp] theorem reg_setMem : (s.setMem m).reg j = s.reg j := rfl
@[simp] theorem reg_outPut : (s.outPut b).reg j = s.reg j := rfl
@[simp] theorem reg_raise : (s.raise op e).reg j = s.reg j := rfl

end RegOfUpdates

section Components
variable {i : Instr} {s t : State}

/-- A written register is the one its instruction names (R22). -/
theorem reg_setReg_eq_or_named {r : RegIdx} (v : Word) (hi : i.operands.head? = some (.regSlot, .register r)) (j : RegIdx) :
    (s.setReg r v).reg j = s.reg j ∨ i.operands.head? = some (.regSlot, .register j) := by
  rcases eq_or_ne r j with rfl | hr
  · exact .inr hi
  · exact .inl (by simp [hr])

/-- A register keeps its word unless the first operand is a register slot that names it (R22). -/
theorem Change.reg_eq_or_named (h : Change i s t) (j : RegIdx) :
    t.reg j = s.reg j ∨ i.operands.head? = some (.regSlot, .register j) := by
  cases h with
  | write r v hi => exact reg_setReg_eq_or_named v hi j
  | pop r v rest hi => exact reg_setReg_eq_or_named (s := { s with stack := rest }) v (by rw [hi]; rfl) j
  | input r b rest hi => exact reg_setReg_eq_or_named (s := { s with inq := rest }) (zext16 b) (by rw [hi]; rfl) j
  | _ => exact .inl rfl

/-- The memory is the same, or `wmem` has written one cell (R25, R145). -/
theorem Change.mem_cases (h : Change i s t) :
    t.mem = s.mem ∨ ∃ (a b : Operand) (addr v : Word), i = .wmem a b ∧ s.valueOf a = some addr ∧ s.valueOf b = some v ∧
      addr.toNat < memWords ∧ t.mem = s.mem.poke addr.toNat v := by
  cases h with
  | store addr v a b hi ha hv hlt => exact .inr ⟨a, b, addr, v, hi, ha, hv, hlt, rfl⟩
  | _ => exact .inl rfl

/-- The stack is the same, or has grown by a word within the capacity, or has lost its last word (R26 to R29). -/
theorem Change.stack_cases (h : Change i s t) :
    t.stack = s.stack ∨
    (∃ v a, t.stack = s.stack ++ [v] ∧ s.params.stackCapacity ≠ some s.sp ∧ (i = .push a ∨ i = .call a)) ∨
    (∃ v, s.stack = t.stack ++ [v] ∧ ((∃ a, i = .pop a) ∨ i = .ret)) := by
  cases h with
  | push v a hi hv hcap => exact .inr (.inl ⟨v, a, rfl, hcap, .inl hi⟩)
  | call target a hi hv hcap => exact .inr (.inl ⟨_, a, rfl, hcap, .inr hi⟩)
  | pop r v rest hi hs => exact .inr (.inr ⟨v, hs, .inl ⟨_, hi⟩⟩)
  | ret target rest hi hs => exact .inr (.inr ⟨target, hs, .inr hi⟩)
  | _ => exact .inl rfl

/-- The output is the same, or one byte longer by an `out` (R34, R150). -/
theorem Change.out_cases (h : Change i s t) : t.out = s.out ∨ ∃ b a, t.out = s.out ++ [b] ∧ i = .out a := by
  cases h with
  | output v a hi => exact .inr ⟨lowByte v, a, rfl, hi⟩
  | _ => exact .inl rfl

/-- The input queue is the same, or has lost its oldest byte to an `in` (R33, R153). -/
theorem Change.inq_cases (h : Change i s t) : t.inq = s.inq ∨ ∃ b a, s.inq = b :: t.inq ∧ i = .inp a := by
  cases h with
  | input r b rest hi hs => exact .inr ⟨b, _, hs, hi⟩
  | _ => exact .inl rfl

/-- No instruction changes the end mark or a parameter (R5, R33). -/
theorem Change.ineof_params_eq (h : Change i s t) : t.ineof = s.ineof ∧ t.params = s.params := by
  cases h <;> exact ⟨rfl, rfl⟩

/-- The status is the same, or one of the two halts with its instruction, or a fault that the opcode can raise (R30, R167). -/
theorem Change.status_cases (h : Change i s t) :
    t.status = s.status ∨
    (t.status = .halted .haltInstr ∧ i = .halt) ∨
    (t.status = .halted .retEmptyStack ∧ i = .ret ∧ s.stack = [] ∧ t.stack = []) ∨
    ∃ f, t.status = .faulted f ∧ f.possible = true := by
  cases h with
  | fault e hc => exact .inr (.inr (.inr ⟨_, rfl, hc⟩))
  | halt hi => exact .inr (.inl ⟨rfl, hi⟩)
  | retEmpty hi hs => exact .inr (.inr (.inl ⟨rfl, hi, hs, hs⟩))
  | _ => exact .inl rfl

end Components

section Frames
variable {i : Instr} {s t : State}

/-- An instruction without that register as its destination keeps a register (R22). -/
theorem Change.reg_eq {a : Operand} {j : RegIdx} (h : Change i s t) (ha : i.operands.head? = some (.regSlot, a))
    (hj : a ≠ .register j) : t.reg j = s.reg j := by
  refine (h.reg_eq_or_named j).resolve_right fun hn => hj ?_
  simpa [ha] using hn

/-- An instruction whose first operand is no register slot keeps every register (R22). -/
theorem Change.sameRegs (h : Change i s t) (hi : ∀ o, i.operands.head? ≠ some (.regSlot, o)) : SameRegs s t :=
  fun j => (h.reg_eq_or_named j).resolve_right (hi _)

/-- An instruction other than `wmem` keeps every cell (R25). -/
theorem Change.sameCells (h : Change i s t) (hi : ∀ a b, i ≠ .wmem a b) : SameCells s t := by
  rcases h.mem_cases with hm | ⟨a, b, addr, v, hw, -⟩
  · exact fun x => by rw [hm]
  · exact absurd hw (hi a b)

/-- An instruction other than `push`, `call`, `pop` and `ret` keeps the stack (R26). -/
theorem Change.stack_eq (h : Change i s t) (hg : ∀ a, i ≠ .push a ∧ i ≠ .call a) (hp : ∀ a, i ≠ .pop a) (hr : i ≠ .ret) :
    t.stack = s.stack := by
  rcases h.stack_cases with hs | ⟨v, a, -, -, hi | hi⟩ | ⟨v, -, ⟨a, hi⟩ | hi⟩
  · exact hs
  · exact absurd hi (hg a).1
  · exact absurd hi (hg a).2
  · exact absurd hi (hp a)
  · exact absurd hi hr

/-- An instruction other than `out` and `in` keeps the streams (R33, R34). -/
theorem Change.sameStreams (h : Change i s t) (ho : ∀ a, i ≠ .out a) (hin : ∀ a, i ≠ .inp a) : SameStreams s t := by
  obtain ⟨heof, hparams⟩ := h.ineof_params_eq
  have hinq : t.inq = s.inq := h.inq_cases.resolve_right fun ⟨_, a, _, hi⟩ => hin a hi
  have hout : t.out = s.out := h.out_cases.resolve_right fun ⟨_, a, _, hi⟩ => ho a hi
  exact ⟨hparams, hinq, heof, hout⟩

/-- An instruction other than `halt` and `ret` keeps the status or faults (R30). -/
theorem Change.statusKept (h : Change i s t) (hh : i ≠ .halt) (hr : i ≠ .ret) : StatusKept s t := by
  rcases h.status_cases with hs | ⟨-, hi⟩ | ⟨-, hi, -⟩ | ⟨f, hf, -⟩
  · exact .inl hs
  · exact absurd hi hh
  · exact absurd hi hr
  · exact .inr ⟨f, hf⟩

end Frames

section Invariant
variable {i : Instr} {s t : State}

/-- Every instruction keeps the canonical form of memory (R25). -/
theorem Change.wf (h : Change i s t) (hs : s.mem.wf = true) : t.mem.wf = true := by
  rcases h.mem_cases with hm | ⟨a, b, addr, v, -, -, -, hlt, hm⟩
  · rw [hm]; exact hs
  · rw [hm]; exact wf_poke hs hlt v

theorem stackFits_iff : s.stackFits = true ↔ ∀ cap, s.params.stackCapacity = some cap → s.sp ≤ cap := by
  cases h : s.params.stackCapacity <;> simp [State.stackFits, h]

/-- Every instruction keeps the stack within its capacity (R27, D11): a push is refused at the capacity. -/
theorem Change.stackFits (h : Change i s t) (hs : s.stackFits = true) : t.stackFits = true := by
  rw [stackFits_iff] at hs ⊢
  intro cap hcap
  rw [h.ineof_params_eq.2] at hcap
  have hle : s.sp ≤ cap := hs cap hcap
  simp only [State.sp] at hle ⊢
  rcases h.stack_cases with hst | ⟨v, a, hst, hne, -⟩ | ⟨v, hst, -⟩
  · rw [hst]; exact hle
  · have hlt : s.stack.length ≠ cap := by rintro rfl; exact hne hcap
    rw [hst, List.length_append, List.length_singleton]
    omega
  · rw [hst, List.length_append] at hle
    omega

/-- Every instruction of a running core leaves a status that agrees with the rest of the state (R128, R167). -/
theorem Change.statusAgrees (h : Change i s t) (hr : s.status = .running) : t.statusAgrees = true := by
  rcases h.status_cases with hst | ⟨hst, -⟩ | ⟨hst, -, -, hempty⟩ | ⟨f, hst, hf⟩
  · simp [State.statusAgrees, hst, hr]
  · simp [State.statusAgrees, hst]
  · simp [State.statusAgrees, hst, hempty]
  · simpa [State.statusAgrees, hst] using hf

theorem Change.inv (h : Change i s t) (hr : s.status = .running) (hs : s.Inv) : t.Inv := by
  obtain ⟨hwf, hfits, -⟩ := hs
  exact ⟨h.wf hwf, h.stackFits hfits, h.statusAgrees hr⟩

/-- The report of a fetch fault is one that R167 and R171 allow. -/
theorem possible_of_fetchInstr_error {e : Option Word × Raised} (h : s.fetchInstr = .error e) :
    FaultReport.possible ⟨e.2.cause, s.pc, e.1⟩ = true := by
  rcases fetchInstr_eq_error.1 h with ⟨hpc, rfl⟩ | ⟨-, hop, rfl⟩
  · simpa [FaultReport.possible] using hpc
  · simpa [FaultReport.possible, mayRaise] using hop

/-- Fault entry with a possible report keeps the invariant (R170). -/
theorem raise_inv {op : Option Word} {e : Raised} (hs : s.Inv) (he : FaultReport.possible ⟨e.cause, s.pc, op⟩ = true) :
    (s.raise op e).Inv := by
  obtain ⟨hwf, hfits, -⟩ := hs
  exact ⟨hwf, hfits, he⟩

end Invariant

end Sys2Proof.Machine

namespace Sys2Proof.Proofs
open Sys2Proof.Machine

/-- Settles O58: fault entry of the fetch and every case of `Change` keep the invariant. -/
theorem stepKeepsInv : Obligations.StepKeepsInv := by
  intro s t hs h
  obtain ⟨hr, ⟨e, hf, rfl⟩ | ⟨i, -, hc⟩⟩ := step_cases h
  · exact raise_inv hs (possible_of_fetchInstr_error hf)
  · exact hc.inv hr hs

end Sys2Proof.Proofs
end

section
/-! PROOFS. The frames of single instructions and of a whole step. -/

namespace Sys2Proof.Machine

theorem mayRaise_ret (c : FaultCause) : mayRaise Instr.ret.opcode c = false := by
  cases c with
  | addressOutOfRange addr k => cases k <;> simp [mayRaise, Instr.opcode]
  | _ => simp [mayRaise, Instr.opcode, nOpcodes]

/-- The two outcomes of `ret`, which never faults (R128, R129). -/
theorem Change.ret_cases {s t : State} (h : Change .ret s t) :
    (s.stack = [] ∧ t = (s.advance 0).setStatus (.halted .retEmptyStack)) ∨
    ∃ target rest, s.stack = rest ++ [target] ∧ t = ({ s with stack := rest } : State).setPc target := by
  cases h with
  | retEmpty _ hs => exact .inl ⟨hs, rfl⟩
  | ret target rest _ hs => exact .inr ⟨target, rest, hs, rfl⟩
  | fault e hc => simp [mayRaise_ret] at hc
  | write _ _ hi => simp [Instr.operands] at hi
  | halt hi | fallThrough hi | jump _ hi | push _ _ hi | pop _ _ _ hi | call _ _ hi | store _ _ _ _ hi | output _ _ hi
  | input _ _ _ hi => simp at hi

end Sys2Proof.Machine

namespace Sys2Proof.Proofs
open Sys2Proof.Machine

/-- Settles O32: each of the ten has its register slot first and is none of the instructions that reach memory, stack or streams. -/
theorem registerWritersFrame : Obligations.RegisterWritersFrame := by
  intro s t a b c i hi h
  have hc := exec_change h
  have ha : i.operands.head? = some (.regSlot, a) := by
    simp only [List.mem_cons, List.not_mem_nil, or_false] at hi
    rcases hi with rfl | rfl | rfl | rfl | rfl | rfl | rfl | rfl | rfl | rfl <;> rfl
  have ne {k : Instr} (hk : k ∉ [Instr.set a b, .eq a b c, .gt a b c, .add a b c, .mult a b c, .mod a b c, .and a b c,
      .or a b c, .not a b, .rmem a b]) : i ≠ k := ne_of_mem_of_not_mem hi hk
  exact ⟨fun j hj => hc.reg_eq ha hj,
    hc.sameCells fun _ _ => ne (by simp),
    hc.stack_eq (fun _ => ⟨ne (by simp), ne (by simp)⟩) (fun _ => ne (by simp)) (ne (by simp)),
    hc.sameStreams (fun _ => ne (by simp)) fun _ => ne (by simp),
    hc.statusKept (ne (by simp)) (ne (by simp))⟩

/-- Settles O33: neither instruction has a register slot, and of the cases of the stack only growth is theirs. -/
theorem pushCallFrame : Obligations.PushCallFrame := by
  intro s t a i hi h
  have hc := exec_change h
  have ne {k : Instr} (hk : k ∉ [Instr.push a, .call a]) : i ≠ k := ne_of_mem_of_not_mem hi hk
  have hregs : ∀ o, i.operands.head? ≠ some (.regSlot, o) := by
    simp only [List.mem_cons, List.not_mem_nil, or_false] at hi
    rcases hi with rfl | rfl <;> simp [Instr.operands]
  have hstack : t.stack.take s.sp = s.stack ∧ t.sp ≤ s.sp + 1 := by
    simp only [State.sp]
    rcases hc.stack_cases with hs | ⟨v, b, hs, -⟩ | ⟨v, -, ⟨b, hp⟩ | hr⟩
    · simp [hs]
    · simp [hs]
    · exact absurd hp (ne (by simp))
    · exact absurd hr (ne (by simp))
  exact ⟨hc.sameRegs hregs, hc.sameCells fun _ _ => ne (by simp),
    hc.sameStreams (fun _ => ne (by simp)) fun _ => ne (by simp), hc.statusKept (ne (by simp)) (ne (by simp)), hstack⟩

/-- Settles O34: `pop` by the frames of `Change`, `ret` by its two outcomes. -/
theorem popRetFrame : Obligations.PopRetFrame := by
  intro s t
  refine ⟨fun a h => ?_, fun h => ?_⟩
  · have hc := exec_change h
    have hstack : t.stack = s.stack ∨ t.stack = s.stack.dropLast := by
      rcases hc.stack_cases with hs | ⟨v, b, -, -, hp | hp⟩ | ⟨v, hs, -⟩
      · exact .inl hs
      · cases hp
      · cases hp
      · exact .inr (by rw [hs, List.dropLast_concat])
    exact ⟨fun j hj => hc.reg_eq rfl hj, hc.sameCells (by simp), hc.sameStreams (by simp) (by simp),
      hc.statusKept (by simp) (by simp), hstack⟩
  · have hc := exec_change h
    refine ⟨hc.sameRegs (by simp [Instr.operands]), hc.sameCells (by simp), hc.sameStreams (by simp) (by simp), ?_⟩
    rcases hc.ret_cases with ⟨hs, rfl⟩ | ⟨target, rest, hs, rfl⟩
    · exact ⟨by simp [hs], .inr ⟨hs, rfl⟩⟩
    · exact ⟨by simp [hs], .inl rfl⟩

/-- Settles O38: the fault of a fetch keeps every register. -/
theorem registerWrittenOnlyByItsName : Obligations.RegisterWrittenOnlyByItsName := by
  intro s t j h hne
  obtain ⟨-, ⟨e, -, rfl⟩ | ⟨i, hf, hc⟩⟩ := step_cases h
  · exact absurd rfl hne
  · exact ⟨i, hf, (hc.reg_eq_or_named j).resolve_left hne⟩

/-- Settles O39: only a store changes the memory, and reading after it differs at its address only. -/
theorem cellWrittenOnlyByWmem : Obligations.CellWrittenOnlyByWmem := by
  intro s t x hwf h hne
  obtain ⟨-, ⟨e, -, rfl⟩ | ⟨i, hf, hc⟩⟩ := step_cases h
  · exact absurd rfl hne
  · rcases hc.mem_cases with hm | ⟨a, b, addr, v, rfl, ha, hv, -, hm⟩
    · exact absurd (by rw [hm]) hne
    · have hpeek : t.mem.peek x = if x = addr.toNat then v else s.mem.peek x := by rw [hm, peek_poke hwf]
      by_cases hx : x = addr.toNat
      · exact ⟨a, b, addr, v, hf, ha, hv, hx, by rw [hpeek, if_pos hx]⟩
      · exact absurd (by rw [hpeek, if_neg hx]) hne

/-- Settles O40: the cases of the stack, each with the instruction fetched. -/
theorem stackMovesOnlyAtTop : Obligations.StackMovesOnlyAtTop := by
  intro s t h
  obtain ⟨-, ⟨e, -, rfl⟩ | ⟨i, hf, hc⟩⟩ := step_cases h
  · exact .inl rfl
  · rw [hf]
    rcases hc.stack_cases with hs | ⟨v, a, hs, -, hi⟩ | ⟨v, hs, hi⟩
    · exact .inl hs
    · exact .inr (.inl ⟨v, a, hs, hi.imp (congrArg _) (congrArg _)⟩)
    · exact .inr (.inr ⟨v, hs, hi.imp (fun ⟨a, ha⟩ => ⟨a, congrArg _ ha⟩) (congrArg _)⟩)

/-- Settles O41: the cases of the two streams, each with the instruction fetched. -/
theorem streamsOnlyByInOut : Obligations.StreamsOnlyByInOut := by
  intro s t h
  obtain ⟨-, ⟨e, -, rfl⟩ | ⟨i, hf, hc⟩⟩ := step_cases h
  · exact ⟨.inl rfl, .inl rfl, rfl, rfl⟩
  · rw [hf]
    exact ⟨hc.out_cases.imp_right fun ⟨b, a, ho, hi⟩ => ⟨b, a, ho, congrArg _ hi⟩,
      hc.inq_cases.imp_right fun ⟨b, a, hq, hi⟩ => ⟨b, a, hq, congrArg _ hi⟩, hc.ineof_params_eq⟩

/-- Settles O44: the cases of the status, from a running core. -/
theorem runEndsInThreeWays : Obligations.RunEndsInThreeWays := by
  intro s t h
  obtain ⟨hr, ⟨e, -, rfl⟩ | ⟨i, hf, hc⟩⟩ := step_cases h
  · exact .inr (.inr (.inr ⟨_, rfl⟩))
  · rcases hc.status_cases with hst | ⟨hst, rfl⟩ | ⟨hst, rfl, hs, -⟩ | ⟨f, hst, -⟩
    · exact .inl (hst.trans hr)
    · exact .inr (.inl ⟨hst, hf⟩)
    · exact .inr (.inr (.inl ⟨hst, hf, hs⟩))
    · exact .inr (.inr (.inr ⟨f, hst⟩))

end Sys2Proof.Proofs
end

section
/-! PROOFS. The output is write-only: bytes put in front of the output change nothing but the output (R34). -/

namespace Sys2Proof.Machine

/-- The state with other bytes in front of those in the output. -/
def State.outAfter (o : List Byte) (s : State) : State := { s with out := o ++ s.out }

/-- An answer with a function applied to its next state. -/
def mapNext (f : State → State) : Result → Result
  | .next t => .next (f t)
  | .fault r => .fault r
  | .refused r => .refused r

section
variable (o : List Byte) (s : State)

@[simp] theorem regSlot_outAfter (k : Nat) (a : Operand) : regSlot (s.outAfter o) k a = regSlot s k a := rfl

@[simp] theorem val_outAfter (k : Nat) (a : Operand) : val (s.outAfter o) k a = val s k a := by
  cases a <;> rfl

@[simp] theorem push_outAfter (v : Word) : (s.outAfter o).push v = (s.push v).map (State.outAfter o) := by
  by_cases h : s.params.stackCapacity = some s.stack.length <;>
    simp [State.push, State.sp, State.outAfter, h, Except.map]

@[simp] theorem pop_outAfter : (s.outAfter o).pop = s.pop.map (Prod.map id (State.outAfter o)) := by
  cases h : s.stack.getLast? <;> simp [State.pop, State.outAfter, h]

@[simp] theorem inTake_outAfter : (s.outAfter o).inTake = s.inTake.map (Prod.map id (State.outAfter o)) := by
  cases h : s.inq <;> simp [State.inTake, State.outAfter, h]

@[simp] theorem inEof_outAfter : (s.outAfter o).inEof = s.inEof := rfl

@[simp] theorem params_outAfter : (s.outAfter o).params = s.params := rfl

@[simp] theorem outPut_outAfter (b : Byte) : (s.outAfter o).outPut b = (s.outPut b).outAfter o := by
  simp [State.outPut, State.outAfter]

end

section
variable {o : List Byte} {i : Instr} {s : State}

/-- A function on the result of a sequence is one on the result of its last part. -/
theorem except_map_bind {α : Type} (f : State → State) (x : Except Raised α) (g : α → Except Raised State) :
    (x >>= g).map f = x >>= fun a => (g a).map f := by
  cases x <;> rfl

/-- A function on what a raising operation answers can be left to what follows it. -/
theorem raiseAt_map_bind {α : Type} (n : Nat) (f : α → α) (x : Except FaultCause α) (g : α → Except Raised State) :
    (raiseAt n (x.map f) >>= g) = raiseAt n x >>= fun a => g (f a) := by
  cases x <;> rfl

/-- An instruction that computes the same effect ends the same, its fault included (R170). -/
theorem finish_outAfter {x y : Except Raised State} (h : y = x.map (.outAfter o)) :
    finish i (s.outAfter o) y = mapNext (.outAfter o) (finish i s x) := by
  subst h
  cases x <;> rfl

theorem execPop_outAfter {a : Operand} : execPop a (s.outAfter o) = mapNext (.outAfter o) (execPop a s) := by
  refine finish_outAfter ?_
  simp only [regSlot_outAfter, pop_outAfter, except_map_bind]
  congr 1
  funext r
  cases s.pop <;> rfl

theorem execRet_outAfter : execRet (s.outAfter o) = mapNext (.outAfter o) (execRet s) := by
  refine finish_outAfter ?_
  rw [pop_outAfter]
  cases s.pop <;> rfl

theorem execOut_outAfter {a : Operand} : execOut a (s.outAfter o) = mapNext (.outAfter o) (execOut a s) := by
  refine finish_outAfter ?_
  simp only [val_outAfter, outPut_outAfter, except_map_bind]
  rfl

theorem execInp_outAfter {a : Operand} : execInp a (s.outAfter o) = mapNext (.outAfter o) (execInp a s) := by
  simp only [execInp, regSlot_outAfter, inTake_outAfter]
  cases regSlot s 1 a with
  | error e => rfl
  | ok r =>
    cases s.inTake with
    | some p => rfl
    | none =>
      by_cases he : s.inEof = true
      · simp only [inEof_outAfter, he, if_true]
        refine finish_outAfter ?_
        by_cases hp : s.params.inEofFatal = true <;>
          simp only [params_outAfter, hp] <;> rfl
      · simp only [inEof_outAfter, he]
        rfl

/-- Every instruction answers the same with other bytes in front of those in the output (R34). -/
theorem exec_outAfter (o : List Byte) (i : Instr) (s : State) : exec i (s.outAfter o) = mapNext (.outAfter o) (exec i s) := by
  cases i with
  | pop a => exact execPop_outAfter
  | ret => exact execRet_outAfter
  | out a => exact execOut_outAfter
  | inp a => exact execInp_outAfter
  | halt | noop => rfl
  | jt a b | jf a b | mod a b c =>
    refine finish_outAfter ?_
    simp only [regSlot_outAfter, val_outAfter, except_map_bind, apply_ite]
    rfl
  | _ =>
    refine finish_outAfter ?_
    simp only [regSlot_outAfter, val_outAfter, push_outAfter, except_map_bind, raiseAt_map_bind]
    rfl

end

theorem step_of_halted {s : State} {r : HaltReason} (hs : s.status = .halted r) : step s = .fault (.runHalted r) := by
  simp [step, hs]

theorem step_of_faulted {s : State} {f : FaultReport} (hs : s.status = .faulted f) : step s = .fault (.runFaulted f) := by
  simp [step, hs]

/-- Every step answers the same with other bytes in front of those in the output (R34). -/
theorem step_outAfter (o : List Byte) (s : State) : step (s.outAfter o) = mapNext (.outAfter o) (step s) := by
  cases hs : s.status with
  | halted r => rw [step_of_halted hs, step_of_halted (s := s.outAfter o) hs]; rfl
  | faulted f => rw [step_of_faulted hs, step_of_faulted (s := s.outAfter o) hs]; rfl
  | running =>
    cases hf : s.fetchInstr with
    | ok i => rw [step_of_fetch hs hf, step_of_fetch (s := s.outAfter o) hs hf, exec_outAfter]
    | error e => rw [step_of_fetch_error hs hf, step_of_fetch_error (s := s.outAfter o) hs hf]; rfl

end Sys2Proof.Machine

namespace Sys2Proof.Proofs
open Sys2Proof.Machine

/-- Settles O42: the step from the empty output, with either output put in front of its bytes. -/
theorem outputNeverReadBack : Obligations.OutputNeverReadBack := by
  intro s t h
  have hfrom (o : List Byte) : step { s with out := o } = mapNext (.outAfter o) (step { s with out := [] }) := by
    rw [← step_outAfter]
    simp [State.outAfter]
  have hs : step s = mapNext (.outAfter s.out) (step { s with out := [] }) := hfrom s.out
  cases h0 : step { s with out := [] } with
  | next u =>
    rw [h, h0] at hs
    cases hs
    exact ⟨u.out, rfl, fun o => by rw [hfrom, h0]; rfl⟩
  | fault r => rw [h, h0] at hs; cases hs
  | refused r => rw [h, h0] at hs; cases hs

end Sys2Proof.Proofs
end

section
/-! PROOFS. The words that computing instructions write (R37, R130). -/

namespace Sys2Proof.Machine

/-- An instruction whose next state is still running has not faulted. -/
theorem eq_ok_of_finish_running {i : Instr} {s t : State} {x : Except Raised State} (h : finish i s x = .next t)
    (ht : t.status = .running) : x = .ok t := by
  rcases finish_cases h with hx | ⟨e, -, rfl⟩
  · exact hx
  · cases ht

theorem reduce_lt (n : Nat) : (reduce n).toNat < 32768 := by
  simp only [reduce, modulus, BitVec.toNat_ofNat]
  omega

theorem truthWord_lt (p : Bool) : (truthWord p).toNat < 32768 := by
  cases p <;> decide

theorem zext16_lt (b : Byte) : (zext16 b).toNat < 256 := by
  have hb := b.isLt
  simp only [zext16, BitVec.toNat_ofNat]
  omega

section
variable {s t : State} {r : RegIdx} {b c : Operand}

/-- What follows a register slot that names `r` goes on with `r` (R83). -/
theorem ok_of_regSlot_bind {k : Nat} {g : RegIdx → Except Raised State} (h : (regSlot s k (.register r) >>= g) = .ok t) :
    g r = .ok t := by
  obtain ⟨q, hq, h⟩ := bind_eq_ok.1 h
  obtain ⟨-, hq⟩ := regSlot_eq_ok.1 hq
  cases hq
  exact h

variable (ht : t.status = .running)
include ht

/-- A completed instruction of format `F3RVV` has written a word computed by its function. -/
theorem execRVV_reg {i : Instr} {f : Word → Word → Word} (h : execRVV i (.register r) b c f s = .next t) :
    ∃ u v, t.reg r = f u v := by
  obtain ⟨u, -, h⟩ := bind_eq_ok.1 (ok_of_regSlot_bind (eq_ok_of_finish_running h ht))
  obtain ⟨v, -, h⟩ := bind_eq_ok.1 h
  cases h
  exact ⟨u, v, by simp⟩

theorem execMod_reg (h : execMod (.register r) b c s = .next t) : ∃ u v, t.reg r = modWord u v := by
  obtain ⟨u, -, h⟩ := bind_eq_ok.1 (ok_of_regSlot_bind (eq_ok_of_finish_running h ht))
  obtain ⟨v, -, h⟩ := bind_eq_ok.1 h
  split at h
  · cases h
  · cases h
    exact ⟨u, v, by simp⟩

theorem execNot_reg (h : execNot (.register r) b s = .next t) : ∃ v, t.reg r = notWord v := by
  obtain ⟨v, -, h⟩ := bind_eq_ok.1 (ok_of_regSlot_bind (eq_ok_of_finish_running h ht))
  cases h
  exact ⟨v, by simp⟩

/-- A completed `in` has written a byte, the sentinel 0 at end of input included (R153, R154). -/
theorem execInp_reg (h : execInp (.register r) s = .next t) : ∃ x, t.reg r = zext16 x := by
  rcases hr : regSlot s 1 (.register r) with e | q
  · simp only [execInp, hr] at h
    cases eq_ok_of_finish_running h ht
  obtain ⟨-, hq⟩ := regSlot_eq_ok.1 hr
  cases hq
  rcases hb : s.inTake with _ | ⟨x, u⟩
  · simp only [execInp, hr, hb] at h
    split at h
    · have hok := eq_ok_of_finish_running h ht
      split at hok
      · cases hok
      · cases hok
        exact ⟨0, by simp [zext16]⟩
    · cases h
  · simp only [execInp, hr, hb] at h
    cases eq_ok_of_finish_running h ht
    exact ⟨x, by simp⟩

end

end Sys2Proof.Machine

namespace Sys2Proof.Proofs
open Sys2Proof.Machine

/-- Settles O47: every destination holds a `truthWord` or a `reduce`, or for `in` a zero-extended byte. -/
theorem computedWordsAreBelow32768 : Obligations.ComputedWordsAreBelow32768 := by
  intro s t r b c ht
  have hrvv {i : Instr} {f : Word → Word → Word} (hf : ∀ u v, (f u v).toNat < 32768)
      (h : execRVV i (.register r) b c f s = .next t) : (t.reg r).toNat < 32768 := by
    obtain ⟨u, v, hreg⟩ := execRVV_reg ht h
    exact hreg ▸ hf u v
  refine ⟨?_, fun h => ?_⟩
  · intro i hi h
    simp only [List.mem_cons, List.not_mem_nil, or_false] at hi
    rcases hi with rfl | rfl | rfl | rfl | rfl | rfl | rfl | rfl
    · exact hrvv (fun _ _ => truthWord_lt _) h
    · exact hrvv (fun _ _ => truthWord_lt _) h
    · exact hrvv (fun _ _ => reduce_lt _) h
    · exact hrvv (fun _ _ => reduce_lt _) h
    · obtain ⟨u, v, hreg⟩ := execMod_reg ht h
      exact hreg ▸ reduce_lt _
    · exact hrvv (fun _ _ => reduce_lt _) h
    · exact hrvv (fun _ _ => reduce_lt _) h
    · obtain ⟨v, hreg⟩ := execNot_reg ht h
      exact hreg ▸ reduce_lt _
  · obtain ⟨x, hreg⟩ := execInp_reg ht h
    exact hreg ▸ zext16_lt x

end Sys2Proof.Proofs
end

section
/-! PROOFS. The stack law (R29). -/

namespace Sys2Proof.Machine

/-- Pushes on an unbounded stack append their words in order. -/
theorem pushAll_eq_ok {s : State} (hs : s.params.stackCapacity = none) (vs : List Word) :
    s.pushAll vs = .ok { s with stack := s.stack ++ vs } := by
  induction vs generalizing s with
  | nil => simp [State.pushAll]
  | cons v vs ih =>
    have hpush : s.push v = .ok { s with stack := s.stack ++ [v] } := push_eq_ok.2 ⟨by simp [hs], rfl⟩
    rw [State.pushAll, hpush]
    simpa using ih (s := { s with stack := s.stack ++ [v] }) hs

/-- As many pops as there are words above a stack give these words, the last one first, and the stack below them. -/
theorem popMany_append (s : State) (vs : List Word) :
    State.popMany { s with stack := s.stack ++ vs } vs.length = some (vs.reverse, s) := by
  induction vs using List.reverseRecOn with
  | nil => simp [State.popMany]
  | append_singleton vs v ih =>
    have hpop : State.pop { s with stack := s.stack ++ (vs ++ [v]) } = some (v, { s with stack := s.stack ++ vs }) :=
      pop_eq_some.2 ⟨s.stack ++ vs, by simp, rfl⟩
    rw [List.length_append, List.length_singleton, State.popMany, hpop]
    simp [ih]

/-- More pops than there are words find the stack empty (R28). -/
theorem popMany_eq_none {s : State} {n : Nat} (h : s.sp < n) : s.popMany n = none := by
  induction n generalizing s with
  | zero => omega
  | succ n ih =>
    rcases hp : s.pop with _ | ⟨v, t⟩
    · simp [State.popMany, hp]
    · obtain ⟨rest, hs, rfl⟩ := pop_eq_some.1 hp
      have hlt : State.sp { s with stack := rest } < n := by simpa [State.sp, hs] using h
      simp [State.popMany, hp, ih hlt]

end Sys2Proof.Machine

namespace Sys2Proof.Proofs
open Sys2Proof.Machine

/-- Settles O51: the stack law. -/
theorem stackIsLastInFirstOut : Obligations.StackIsLastInFirstOut := by
  intro s vs hs
  exact ⟨_, pushAll_eq_ok hs vs, popMany_append s vs, fun hempty => popMany_eq_none (by simp [State.sp, hempty])⟩

end Sys2Proof.Proofs
end

section
/-! PROOFS. Reset, launch, the host's moves, and the end of the run (R30 to R36). -/

namespace Sys2Proof.Machine

theorem reset_inv_with_params (params : Config) : State.Inv { State.reset with params := params } :=
  ⟨rfl, stackFits_iff.2 fun cap _ => Nat.zero_le cap, rfl⟩

/-- The host's moves touch the streams only (R35). -/
theorem hostMove_eq_some {s t : State} {move : HostMove} (h : s.hostMove move = some t) :
    t = { s with inq := t.inq, ineof := t.ineof, out := t.out } := by
  cases move with
  | deliver _ | endInput =>
    simp only [State.hostMove, Option.ite_none_left_eq_some] at h
    obtain ⟨-, h⟩ := h
    cases h
    rfl
  | takeOutput =>
    rcases ho : s.out with _ | ⟨b, rest⟩
    · simp [State.hostMove, ho] at h
    · simp only [State.hostMove, ho] at h
      cases h
      rfl

/-- The host's moves keep the invariant, which says nothing of the streams (R35). -/
theorem hostMove_inv {s t : State} {move : HostMove} (h : s.hostMove move = some t) (hs : s.Inv) : t.Inv := by
  rw [hostMove_eq_some h]
  exact hs

/-- The load of an image that fits: everything but the memory is as before (R32). -/
theorem load_eq_some {s : State} {img : List Word} (h : img.length ≤ memWords) :
    s.load img = some (s.setMem (s.mem.place 0 img)) :=
  if_pos h

theorem load_eq_none {s : State} {img : List Word} (h : memWords < img.length) : s.load img = none :=
  if_neg (by omega)

end Sys2Proof.Machine

namespace Sys2Proof.Proofs
open Sys2Proof.Machine

/-- Settles O9: no step leaves an ended core, and the host's moves keep its own state. -/
theorem endedRunChangesNothing : Obligations.EndedRunChangesNothing := by
  intro s t hs hrun
  induction hrun with
  | start => exact ⟨rfl, rfl, rfl, rfl, rfl⟩
  | step u v _ hstep ih =>
    obtain ⟨-, -, -, -, hst⟩ := ih
    exact absurd (hst ▸ (step_cases hstep).1) hs
  | host u v move _ hm ih =>
    rw [hostMove_eq_some hm]
    exact ih

/-- Settles O55: the cells by `peek_place` in the empty memory of reset. -/
theorem launchPlacesImage : Obligations.LaunchPlacesImage := by
  intro params img
  refine ⟨fun hlen => ?_, fun hlen => load_eq_none hlen⟩
  have hfit : 0 + img.length ≤ memWords := by simpa using hlen
  obtain ⟨-, hfits, hst⟩ := reset_inv_with_params params
  refine ⟨_, load_eq_some hlen, fun x => ?_, ⟨wf_place wf_nil 0 img hfit, hfits, hst⟩, rfl⟩
  exact (peek_place wf_nil 0 img hfit x).trans (by simp)

/-- Settles O7: the two stops of `step`. -/
theorem endedCoreHasNoStep : Obligations.EndedCoreHasNoStep :=
  fun _ => ⟨fun _ => step_of_halted, fun _ => step_of_faulted⟩

/-- Settles O54: the fields of `State.reset`. -/
theorem resetValues : Obligations.ResetValues := by
  refine ⟨fun j => ?_, rfl, fun x => rfl, rfl, rfl, rfl⟩
  simp [State.reg, State.reset]

/-- Settles O56: a move of the host touches the streams only. -/
theorem hostMovesLeaveCoreAlone : Obligations.HostMovesLeaveCoreAlone := by
  intro s t move h
  have hinv : s.Inv → t.Inv := hostMove_inv h
  rw [hostMove_eq_some h] at hinv ⊢
  exact ⟨rfl, rfl, rfl, rfl, rfl, rfl, hinv⟩

/-- Settles O57: reset is reset with the default parameters. -/
theorem resetSatisfiesInv : Obligations.ResetSatisfiesInv :=
  reset_inv_with_params Config.default

end Sys2Proof.Proofs
end

section
/-! PROOFS. Memory: reading after writing, its canonical form, and that the fetch sees every store (R40 to R43, R52). -/

namespace Sys2Proof.Machine

section CanonicalForm
variable {lo a : Nat} {v : Word} {m m' : Memory}

@[simp] theorem peek_cons_self : Memory.peek ((a, v) :: m) a = v := if_pos rfl

/-- No cell below the first listed one holds another word than 0. -/
theorem head_le_of_peek_ne_zero {addr : Nat} (h : Memory.risesFrom lo ((a, v) :: m) = true)
    (hne : Memory.peek ((a, v) :: m) addr ≠ 0#16) : a ≤ addr := by
  have hrise : Memory.risesFrom a ((a, v) :: m) = true := (risesFrom_cons ..).2 ⟨Nat.le_refl a, ((risesFrom_cons ..).1 h).2⟩
  by_contra hlt
  exact hne (peek_eq_zero_of_lt hrise (Nat.lt_of_not_le hlt))

/-- The tails of two lists with the same first cell agree on every cell if the lists do: neither tail lists the first cell. -/
theorem peek_tail_eq (h : Memory.risesFrom (a + 1) m = true) (h' : Memory.risesFrom (a + 1) m' = true)
    (heq : ∀ x, Memory.peek ((a, v) :: m) x = Memory.peek ((a, v) :: m') x) (x : Nat) : m.peek x = m'.peek x := by
  by_cases hx : a = x
  · subst hx
    rw [peek_eq_zero_of_lt h (Nat.lt_succ_self a), peek_eq_zero_of_lt h' (Nat.lt_succ_self a)]
  · simpa only [peek_cons, if_neg hx] using heq x

/-- Rising lists of cells that hold other words than 0 are the same list if they read the same (R40, log entry 1). -/
theorem eq_of_peek_eq (h : Memory.risesFrom lo m = true) (h' : Memory.risesFrom lo m' = true)
    (hz : ∀ c ∈ m, c.2 ≠ 0#16) (hz' : ∀ c ∈ m', c.2 ≠ 0#16) (heq : ∀ x, m.peek x = m'.peek x) : m = m' := by
  induction m generalizing lo m' with
  | nil =>
    cases m' with
    | nil => rfl
    | cons c' m' =>
      obtain ⟨a', v'⟩ := c'
      exact absurd (by simpa using (heq a').symm) (hz' (a', v') (by simp))
  | cons c m ih =>
    obtain ⟨a, v⟩ := c
    have hv : v ≠ 0#16 := hz (a, v) (by simp)
    cases m' with
    | nil => exact absurd (by simpa using heq a) hv
    | cons c' m' =>
      obtain ⟨a', v'⟩ := c'
      have hv' : v' ≠ 0#16 := hz' (a', v') (by simp)
      have hle : a' ≤ a := head_le_of_peek_ne_zero h' (by simpa [← heq a] using hv)
      have hge : a ≤ a' := head_le_of_peek_ne_zero h (by simpa [heq a'] using hv')
      obtain rfl : a = a' := Nat.le_antisymm hge hle
      obtain rfl : v = v' := by simpa using heq a
      have hm := ((risesFrom_cons ..).1 h).2
      have hm' := ((risesFrom_cons ..).1 h').2
      rw [ih hm hm' (fun c hc => hz c (List.mem_cons_of_mem _ hc)) (fun c hc => hz' c (List.mem_cons_of_mem _ hc))
        (peek_tail_eq hm hm' heq)]

end CanonicalForm

section Store
variable {s : State} {a b : Operand} {addr v : Word}

/-- A `wmem` with two values and an address below 32768 stores the word and goes on past its own three words (R145). -/
theorem exec_wmem_store (hex : s.operandExists 2 = true) (ha : s.valueOf a = some addr) (hb : s.valueOf b = some v)
    (hlt : addr.toNat < memWords) :
    exec (.wmem a b) s = .next ((s.setMem (s.mem.poke addr.toNat v)).advance 2) := by
  have hw : memWrite s.mem addr v = .ok (s.mem.poke addr.toNat v) := memWrite_eq_ok.2 ⟨hlt, rfl⟩
  simp only [exec, execWmem, val_of_valueOf (operandExists_mono hex (Nat.le_succ 1)) ha, val_of_valueOf hex hb, hw, raiseAt, ok_bind,
    finish_pure]

/-- A running core whose word at `pc` decodes executes what that word and those after it decode to (R80, R81). -/
theorem step_of_decode {i : Instr} (hs : s.status = .running) (hpc : s.pc.toNat < memWords)
    (hd : decode (s.mem.peek s.pc.toNat) (s.wordAt 1) (s.wordAt 2) (s.wordAt 3) = .ok i) : step s = exec i s :=
  step_of_fetch hs (fetchInstr_eq_ok.2 ⟨hpc, hd⟩)

/-- A running core whose word at `pc` is no opcode raises UnknownOpcode after that one fetch (R67). -/
theorem step_of_unknownOpcode (hs : s.status = .running) (hpc : s.pc.toNat < memWords)
    (hop : nOpcodes ≤ (s.mem.peek s.pc.toNat).toNat) :
    step s = .next (s.raise (some (s.mem.peek s.pc.toNat)) ⟨1, .unknownOpcode (s.mem.peek s.pc.toNat)⟩) :=
  step_of_fetch_error hs (fetchInstr_eq_error.2 (.inr ⟨hpc, hop, rfl⟩))

end Store

end Sys2Proof.Machine

namespace Sys2Proof.Proofs
open Sys2Proof.Machine

/-- Settles O49: the store leaves `pc` at the cell it wrote, so the next fetch reads `v` there. -/
theorem storeSeenByNextFetch : Obligations.StoreSeenByNextFetch := by
  intro s a b addr v hwf hs hf ha hb haddr hlt
  have hex : s.operandExists 2 = true := operandExists_iff.2 (show s.pc.toNat + 2 < 32768 by omega)
  have hstep := (step_of_fetch hs hf).trans (exec_wmem_store hex ha hb hlt)
  generalize ht : (s.setMem (s.mem.poke addr.toNat v)).advance 2 = t at hstep
  have hpc : t.pc = addr := by
    apply BitVec.eq_of_toNat_eq
    simp only [← ht, advance_pc, setMem_pc, BitVec.toNat_add, BitVec.toNat_ofNat]
    omega
  have hst : t.status = .running := by simp [← ht, hs]
  have hlt' : t.pc.toNat < memWords := by simpa [hpc] using hlt
  have hmem : t.mem = s.mem.poke addr.toNat v := by simp [← ht]
  have hop : t.mem.peek t.pc.toNat = v := by rw [hmem, hpc, peek_poke hwf, if_pos rfl]
  refine ⟨t, hstep, hpc, hst, fun i hd => ?_, fun hv => ?_⟩
  · exact step_of_decode hst hlt' (by rwa [hop])
  · simpa only [hop] using step_of_unknownOpcode hst hlt' (by rwa [hop])

/-- Settles O52: the cells by `peek_poke`, two addresses being the same word exactly if they are the same number. -/
theorem memoryReadsWhatWasWritten : Obligations.MemoryReadsWhatWasWritten := by
  intro m addr v kind hwf
  refine ⟨fun hlt => ⟨m.poke addr.toNat v, memWrite_eq_ok.2 ⟨hlt, rfl⟩, wf_poke hwf hlt v, fun b hb => ?_⟩, fun hge => ?_⟩
  · exact memRead_eq_ok.2 ⟨hb, by simp only [peek_poke hwf, BitVec.toNat_inj]⟩
  · exact ⟨memWrite_eq_error.2 ⟨hge, rfl⟩, memRead_eq_error.2 ⟨hge, rfl⟩⟩

/-- Settles O53: a memory of canonical form rises from 0 and lists no cell that holds 0. -/
theorem sameCellsSameMemory : Obligations.SameCellsSameMemory := by
  intro m m' hwf hwf' heq
  obtain ⟨hrise, hcells⟩ := wf_iff.1 hwf
  obtain ⟨hrise', hcells'⟩ := wf_iff.1 hwf'
  exact eq_of_peek_eq hrise hrise' (fun c hc => (hcells c hc).2) (fun c hc => (hcells' c hc).2) heq

end Sys2Proof.Proofs
end

section
/-! PROOFS. The decoder and the encoder are each other's inverse, and the three classes of an operand word (R60 to R69, R83, R84). -/

namespace Sys2Proof

section OperandClasses
variable {w : Word}

theorem classify_of_lt_regBase (h : w.toNat < regBase) : classify w = .literal (BitVec.ofNat 15 w.toNat) := if_pos h

theorem classify_of_eq_register {k : RegIdx} (h : w.toNat = regBase + k.val) : classify w = .register k := by
  have hw : Operand.word (.register k) = w := by rw [Operand.word, ← h, BitVec.ofNat_toNat, BitVec.setWidth_eq]
  rw [← hw, classify_word rfl]

theorem classify_of_regLimit_le (h : regLimit ≤ w.toNat) : classify w = .invalid w :=
  classify_word (o := .invalid w) (decide_eq_true h)

/-- Lists of canonical operands and lists of words are the same data (R63). -/
theorem eq_map_classify_iff {os : List Operand} {ws : List Word} :
    os = ws.map classify ↔ (∀ o ∈ os, o.canonical = true) ∧ os.map Operand.word = ws := by
  constructor
  · rintro rfl
    simp [Function.comp_def]
  · rintro ⟨hc, rfl⟩
    rw [List.map_map]
    exact ((List.map_congr_left fun o ho => classify_word (hc o ho)).trans (List.map_id os)).symm

end OperandClasses

section RoundTrip
variable {op a b c : Word} {i : Instr} {ws rest : List Word}

/-- Four words decode to the instruction of that opcode word whose operands are the classes of as many of the other three words as it
has operands (R62, R65, R66). -/
theorem decode_eq_ok_iff : decode op a b c = .ok i ↔
    i.opcode = op ∧ i.operands.map Prod.snd = ([a, b, c].take i.operands.length).map classify := by
  constructor
  · intro h
    refine ⟨(decode_eq_ok h).1, ?_⟩
    simp only [decode] at h
    split at h
    case h_23 => cases h
    all_goals cases h; rfl
  · rintro ⟨rfl, h⟩
    cases i
    all_goals simp_all [decode, Instr.opcode, Instr.operands]

theorem encode_eq (i : Instr) : encode i = i.opcode :: (i.operands.map Prod.snd).map Operand.word := by
  rw [encode, List.map_map]
  rfl

theorem canonical_iff : i.canonical = true ↔ ∀ o ∈ i.operands.map Prod.snd, o.canonical = true := by
  rw [Instr.canonical, List.all_eq_true, List.forall_mem_map]

theorem operands_length_le (i : Instr) : i.operands.length ≤ 3 := by cases i <;> simp [Instr.operands]

/-- The three words that `decodeWords` looks at are the next ones, or 0 where the list has ended. -/
theorem getD_eq_take (ws : List Word) : [ws.getD 0 0, ws.getD 1 0, ws.getD 2 0] = (ws ++ [0, 0, 0]).take 3 :=
  match ws with
  | [] | [_] | [_, _] | _ :: _ :: _ :: _ => rfl

theorem take_getD {n : Nat} (hn : n ≤ 3) (hl : n ≤ ws.length) :
    [ws.getD 0 0, ws.getD 1 0, ws.getD 2 0].take n = ws.take n := by
  rw [getD_eq_take, List.take_take, Nat.min_eq_left hn, List.take_append_of_le_length hl]

/-- The decoder reads an instruction exactly if the list has its operand words, and leaves the words after them (R60, R62). -/
theorem decodeWords_cons_eq_ok : decodeWords (op :: ws) = .ok (i, rest) ↔
    i.operands.length ≤ ws.length ∧ decode op (ws.getD 0 0) (ws.getD 1 0) (ws.getD 2 0) = .ok i ∧
      ws.drop i.operands.length = rest := by
  constructor
  · intro h
    simp only [decodeWords] at h
    split at h
    · cases h
    · split at h
      · cases h
      · split at h
        · next n hn hl _ j hd =>
          cases h
          rw [← (decode_eq_ok hd).1, operandCount_opcode] at hn
          cases hn
          exact ⟨Nat.le_of_not_lt hl, hd, rfl⟩
        · cases h
  · rintro ⟨hl, hd, rfl⟩
    have hn : operandCount op = some i.operands.length := (decode_eq_ok hd).1 ▸ operandCount_opcode i
    simp only [decodeWords, hn, if_neg (Nat.not_lt.2 hl), hd]

/-- What decoding a list of words means: the instruction read is the canonical one whose encoding the list begins with (R60, R69). -/
theorem decodeWords_eq_ok_iff : decodeWords ws = .ok (i, rest) ↔ i.canonical = true ∧ encode i ++ rest = ws := by
  cases ws with
  | nil => simp [decodeWords, encode]
  | cons op ws =>
    rw [decodeWords_cons_eq_ok, decode_eq_ok_iff, eq_map_classify_iff, ← canonical_iff, encode_eq, List.cons_append, List.cons.injEq]
    constructor
    · rintro ⟨hl, ⟨hop, hc, hw⟩, rfl⟩
      exact ⟨hc, hop, by rw [hw, take_getD (operands_length_le i) hl, List.take_append_drop]⟩
    · rintro ⟨hc, hop, rfl⟩
      have hl : i.operands.length ≤ ((i.operands.map Prod.snd).map Operand.word ++ rest).length := by simp
      refine ⟨hl, ⟨hop, hc, ?_⟩, List.drop_left' (by simp)⟩
      rw [take_getD (operands_length_le i) hl, List.take_left' (by simp)]

/-- Only the opcode word is refused as unknown, and only when it is none (R67). -/
theorem decodeWords_cons_eq_unknownOpcode : decodeWords (op :: ws) = .error (.unknownOpcode op) ↔ nOpcodes ≤ op.toNat := by
  rw [← operandCount_eq_none, decodeWords]
  cases hn : operandCount op with
  | none => simp
  | some n =>
    have hop : ¬ nOpcodes ≤ op.toNat := fun h => by simp [operandCount_eq_none.2 h] at hn
    simp only [reduceCtorEq, iff_false]
    split
    · simp
    · split
      · simp
      · next hd => exact absurd (decode_eq_error.1 hd).1 hop

end RoundTrip

end Sys2Proof

namespace Sys2Proof.Proofs
open Sys2Proof.Machine

/-- Settles O1: the encoding followed by other words begins with the encoding. -/
theorem encodeThenDecodeGivesBack : Obligations.EncodeThenDecodeGivesBack :=
  fun _ _ hc => decodeWords_eq_ok_iff.2 ⟨hc, rfl⟩

/-- Settles O2: the same equivalence as O1, read from left to right. -/
theorem decodeThenEncodeGivesBack : Obligations.DecodeThenEncodeGivesBack :=
  fun _ _ _ h => (decodeWords_eq_ok_iff.1 h).symm

/-- Settles O3: the opcode words without an operand count are those from 22 on. -/
theorem unknownOpcodeExactlyFrom22 : Obligations.UnknownOpcodeExactlyFrom22 :=
  fun _ _ => decodeWords_cons_eq_unknownOpcode

/-- Settles O5, one class at a time; a literal keeps its number, since 15 bits hold it. -/
theorem operandWordResolves : Obligations.OperandWordResolves := by
  intro s w
  refine ⟨fun h => ?_, fun k h => ?_, fun h => ?_, word_classify w⟩
  · have hv : s.valueOf (classify w) = some (classify w).word := by rw [classify_of_lt_regBase h]; rfl
    rw [hv, word_classify, classify_of_lt_regBase h]
    exact ⟨rfl, rfl⟩
  · rw [classify_of_eq_register h]
    exact ⟨rfl, rfl⟩
  · rw [classify_of_regLimit_le h]
    exact ⟨rfl, rfl⟩

/-- Settles O4: each list is the encoding of its instruction, and the encodings are closed words. -/
theorem specWordsDecode : Obligations.SpecWordsDecode := by
  simp only [Obligations.SpecWordsDecode, decodeWords_eq_ok_iff]
  decide

end Sys2Proof.Proofs
end

section
/-! PROOFS. Fetch, decode, execute (R80 to R89): the first operand fault of an instruction, said once for all instructions and missing
words, and the hold of `in`. -/

namespace Sys2Proof.Machine

/-- The fault of fetching and resolving operand word `k` in its role, if there is one (R82 to R84). -/
def operandFault (s : State) (k : Nat) (p : Role × Operand) : Option Raised :=
  if s.operandExists k then
    if p.1.accepts p.2 then none else some ⟨k + 1, Role.faultCause p.1 p.2⟩
  else some (s.fetchPastTop k)

/-- The first operand fault of operands whose words are numbered from `k`, in the order of R86. -/
def firstOperandFault (s : State) : Nat → List (Role × Operand) → Option Raised
  | _, [] => none
  | k, p :: ps => (operandFault s k p).or (firstOperandFault s (k + 1) ps)

section OperandFaultRules
variable {s : State} {k : Nat} {p : Role × Operand} {o : Operand} {e : Raised}

theorem operandFault_of_accepts (hx : s.operandExists k = true) (ha : p.1.accepts p.2 = true) : operandFault s k p = none := by
  simp [operandFault, hx, ha]

theorem operandFault_eq_some : operandFault s k p = some e ↔
    (s.operandExists k = false ∧ e = s.fetchPastTop k) ∨
    (s.operandExists k = true ∧ p.1.accepts p.2 = false ∧ e = ⟨k + 1, Role.faultCause p.1 p.2⟩) := by
  by_cases hx : s.operandExists k = true <;> simp [operandFault, hx, eq_comm (a := e)]

/-- `RegSlot(Fetch())` raises exactly the fault of its operand (R82, R83). -/
theorem regSlot_eq_error_iff_operandFault : regSlot s k o = .error e ↔ operandFault s k (.regSlot, o) = some e :=
  regSlot_eq_error.trans (operandFault_eq_some (p := (.regSlot, o))).symm

/-- `Val(Fetch())` raises exactly the fault of its operand (R82, R84). -/
theorem val_eq_error_iff_operandFault : val s k o = .error e ↔ operandFault s k (.value, o) = some e :=
  val_eq_error.trans (operandFault_eq_some (p := (.value, o))).symm

end OperandFaultRules

section FirstFault
variable {s : State} {k : Nat} {i : Instr} {o : Operand} {p : Role × Operand} {ps before after : List (Role × Operand)} {e : Raised}

/-- A computation that raises exactly an operand's fault, followed by one that raises the first fault of the later operands, raises
the first fault of all of them. -/
theorem bind_eq_error_of_firstOperandFault {α β : Type} {x : Except Raised α} {g : α → Except Raised β}
    (hx : ∀ e, x = .error e ↔ operandFault s k p = some e) (h : firstOperandFault s k (p :: ps) = some e)
    (hg : ∀ a, firstOperandFault s (k + 1) ps = some e → g a = .error e) : (x >>= g) = .error e := by
  rcases Option.or_eq_some_iff.1 h with hp | ⟨hp, hps⟩
  · rw [(hx e).2 hp, error_bind]
  · cases x with
    | ok a => exact hg a hps
    | error e' => simpa [hp] using (hx e').1 rfl

theorem regSlot_bind_eq_error {g : RegIdx → Except Raised State} (h : firstOperandFault s k ((.regSlot, o) :: ps) = some e)
    (hg : ∀ r, firstOperandFault s (k + 1) ps = some e → g r = .error e) : (regSlot s k o >>= g) = .error e :=
  bind_eq_error_of_firstOperandFault (fun _ => regSlot_eq_error_iff_operandFault) h hg

theorem val_bind_eq_error {g : Word → Except Raised State} (h : firstOperandFault s k ((.value, o) :: ps) = some e)
    (hg : ∀ v, firstOperandFault s (k + 1) ps = some e → g v = .error e) : (val s k o >>= g) = .error e :=
  bind_eq_error_of_firstOperandFault (fun _ => val_eq_error_iff_operandFault) h hg

theorem finish_eq_raise {x : Except Raised State} (h : x = .error e) : finish i s x = .next (s.raise (some i.opcode) e) := by
  rw [h, finish_error]

/-- Every instruction takes the first fault of its operands, whatever its effect would be (R86). -/
theorem exec_of_firstOperandFault (h : firstOperandFault s 1 i.operands = some e) :
    exec i s = .next (s.raise (some i.opcode) e) := by
  cases i with
  | halt | ret | noop => cases h
  | push _ | jmp _ | call _ | out _ => exact finish_eq_raise (val_bind_eq_error h nofun)
  | pop _ => exact finish_eq_raise (regSlot_bind_eq_error h nofun)
  | inp a =>
    have hr : regSlot s 1 a = .error e :=
      regSlot_eq_error_iff_operandFault.2 (by simpa [Instr.operands, firstOperandFault] using h)
    simp only [exec, execInp, hr, finish_error]
  | set _ _ | not _ _ | rmem _ _ =>
    exact finish_eq_raise (regSlot_bind_eq_error h fun _ h => val_bind_eq_error h nofun)
  | jt _ _ | jf _ _ | wmem _ _ =>
    exact finish_eq_raise (val_bind_eq_error h fun _ h => val_bind_eq_error h nofun)
  | eq _ _ _ | gt _ _ _ | add _ _ _ | mult _ _ _ | mod _ _ _ | and _ _ _ | or _ _ _ =>
    exact finish_eq_raise
      (regSlot_bind_eq_error h fun _ h => val_bind_eq_error h fun _ h => val_bind_eq_error h nofun)

/-- The first fault is the one of the operand after those that are legal and whose words lie in memory. -/
theorem firstOperandFault_append (ha : ∀ q ∈ before, q.1.accepts q.2 = true)
    (hx : ∀ j, k ≤ j → j < k + before.length → s.operandExists j = true) (hp : operandFault s (k + before.length) p = some e) :
    firstOperandFault s k (before ++ p :: after) = some e := by
  induction before generalizing k with
  | nil => simpa [firstOperandFault] using .inl hp
  | cons q before ih =>
    simp only [List.length_cons] at hx hp
    have hq : operandFault s k q = none := operandFault_of_accepts (hx k (by omega) (by omega)) (ha q (by simp))
    rw [List.cons_append, firstOperandFault, hq, Option.none_or]
    exact ih (fun r hr => ha r (by simp [hr])) (fun j h1 h2 => hx j (by omega) (by omega))
      (by rwa [show k + 1 + before.length = k + (before.length + 1) by omega])

/-- An instruction whose operands before one are legal and lie in memory takes the fault of that one (R82, R86). -/
theorem exec_of_operandFault (hops : i.operands = before ++ p :: after) (ha : ∀ q ∈ before, q.1.accepts q.2 = true)
    (hx : ∀ j, 1 ≤ j → j ≤ before.length → s.operandExists j = true) (hp : operandFault s (before.length + 1) p = some e) :
    exec i s = .next (s.raise (some i.opcode) e) := by
  refine exec_of_firstOperandFault ?_
  rw [hops]
  exact firstOperandFault_append ha (fun j h1 h2 => hx j h1 (by omega)) (by rwa [Nat.add_comm])

end FirstFault

section Hold
variable {s : State}

/-- When a core is held, its parts named (R155). -/
theorem held_iff : s.held = true ↔
    s.status = .running ∧ (∃ r, s.fetchInstr = .ok (.inp (.register r))) ∧ s.operandExists 1 = true ∧ s.inq = [] ∧
      s.ineof = false := by
  unfold State.held
  split
  next r hs hf => simp [hs, hf, and_assoc]
  next hn =>
    refine iff_of_false (by simp) ?_
    rintro ⟨hs, ⟨r, hf⟩, -⟩
    exact hn r hs hf

/-- A legal `in` with no byte waiting and the input not ended has no step (R155, D10). -/
theorem exec_inp_held {r : RegIdx} (hx : s.operandExists 1 = true) (hq : s.inq = []) (he : s.ineof = false) :
    exec (.inp (.register r)) s = .fault .heldForInput := by
  have heof : s.inEof = false := by simp [State.inEof, he]
  simp [exec, execInp, regSlot_register hx, inTake_eq_none.2 hq, heof]

end Hold

end Sys2Proof.Machine

namespace Sys2Proof.Proofs
open Sys2Proof.Machine

/-- Settles O8: the fetch faults, or the instruction fetched has a next state or is an `in` that waits, which is the hold. -/
theorem runningCoreStepsUnlessHeld : Obligations.RunningCoreStepsUnlessHeld := by
  intro s hs
  refine ⟨fun hnot => ?_, fun hheld => ?_⟩
  · rcases hf : s.fetchInstr with e | i
    · exact ⟨_, step_of_fetch_error hs hf⟩
    rw [step_of_fetch hs hf]
    refine (exec_next_or_held i s).resolve_right ?_
    rintro ⟨-, hx, ⟨r, rfl⟩, hq, he⟩
    exact Bool.eq_false_iff.1 hnot (held_iff.2 ⟨hs, ⟨r, hf⟩, hx, hq, he⟩)
  · obtain ⟨-, ⟨r, hf⟩, hx, hq, he⟩ := held_iff.1 hheld
    rw [step_of_fetch hs hf, exec_inp_held hx hq he]

/-- Settles O12: the operand whose word is at 32768 has the fetch fault, and the words before it lie in memory. -/
theorem truncatedInstrFaults : Obligations.TruncatedInstrFaults := by
  intro s i k hs hf hk hlen htop ha
  have hops : i.operands = i.operands.take (k - 1) ++ i.operands[k - 1] :: i.operands.drop (k - 1 + 1) := by
    rw [← List.drop_eq_getElem_cons, List.take_append_drop]
  have hlength : k = (i.operands.take (k - 1)).length + 1 := by rw [List.length_take]; omega
  generalize i.operands.take (k - 1) = before at hops ha hlength
  subst hlength
  have hx : ∀ j, 1 ≤ j → j ≤ before.length → s.operandExists j = true := fun j _ hj =>
    operandExists_iff.2 (show s.pc.toNat + j < 32768 by omega)
  have hmissing : s.operandExists (before.length + 1) = false := by simp [State.operandExists, htop]
  have haddr : s.pc + BitVec.ofNat 16 (before.length + 1) = 32768 := by
    calc s.pc + BitVec.ofNat 16 (before.length + 1)
      _ = BitVec.ofNat 16 (s.pc.toNat + (before.length + 1)) := by
        rw [BitVec.ofNat_add s.pc.toNat, BitVec.ofNat_toNat, BitVec.setWidth_eq]
      _ = 32768 := by rw [htop]; rfl
  rw [step_of_fetch hs hf, exec_of_operandFault hops ha hx (operandFault_eq_some.2 (.inl ⟨hmissing, rfl⟩))]
  simp only [State.raise, State.fetchPastTop, haddr]

/-- Settles O13: the fault of the operand in question is the fault of its role, or of its fetch. -/
theorem firstIllegalOperandReported : Obligations.FirstIllegalOperandReported := by
  refine fun i s => ⟨fun before after role o hops ha hrole hx => ?_, fun before after p hops ha hx hmissing => ?_⟩
  · exact exec_of_operandFault hops ha (fun j _ hj => operandExists_mono hx (by omega))
      (operandFault_eq_some.2 (.inr ⟨hx, hrole, rfl⟩))
  · exact exec_of_operandFault hops ha hx (operandFault_eq_some.2 (.inl ⟨hmissing, rfl⟩))

/-- Settles O6: the words after the one at `pc` are the operand words of `step_of_decode`. -/
theorem stepRunsDecodedInstr : Obligations.StepRunsDecodedInstr :=
  fun _ _ hs hpc hd => step_of_decode hs hpc hd

/-- Settles O11: no word was fetched, so fault entry leaves `pc`. -/
theorem opcodeFetchPastTopFaults : Obligations.OpcodeFetchPastTopFaults := by
  intro s hs hpc
  rw [step_of_fetch_error hs (fetchInstr_eq_error.2 (.inl ⟨hpc, rfl⟩))]
  simp [State.raise]

end Sys2Proof.Proofs
end

section
/-! PROOFS. `halt`, `noop` and the jumps without a return address (R100 to R103, R120 to R124). -/

namespace Sys2Proof.Machine

/-- `halt` leaves `pc` past its opcode word and the status of a normal end (R101). -/
theorem exec_halt (s : State) : exec .halt s = .next { s with pc := s.pc + 1, status := .halted .haltInstr } := rfl

/-- `noop` leaves `pc` past its opcode word (R103). -/
theorem exec_noop (s : State) : exec .noop s = .next { s with pc := s.pc + 1 } := rfl

end Sys2Proof.Machine

namespace Sys2Proof.Proofs
open Sys2Proof.Machine

/-- Settles O35: no jump and no `noop` has a register slot or reaches memory, stack or streams; `halt` has one next state. -/
theorem jumpHaltNoopFrame : Obligations.JumpHaltNoopFrame := by
  intro s t a b
  refine ⟨fun i hi h => ?_, fun h => ?_⟩
  · have hc := exec_change h
    have ne {k : Instr} (hk : k ∉ [Instr.jmp a, .jt a b, .jf a b, .noop]) : i ≠ k := ne_of_mem_of_not_mem hi hk
    have hregs : ∀ o, i.operands.head? ≠ some (.regSlot, o) := by
      simp only [List.mem_cons, List.not_mem_nil, or_false] at hi
      rcases hi with rfl | rfl | rfl | rfl <;> simp [Instr.operands]
    exact ⟨hc.sameRegs hregs,
      hc.sameCells fun _ _ => ne (by simp),
      hc.stack_eq (fun _ => ⟨ne (by simp), ne (by simp)⟩) (fun _ => ne (by simp)) (ne (by simp)),
      hc.sameStreams (fun _ => ne (by simp)) fun _ => ne (by simp),
      hc.statusKept (ne (by simp)) (ne (by simp))⟩
  · rw [exec_halt] at h
    cases h
    exact ⟨fun _ => rfl, fun _ => rfl, rfl, ⟨rfl, rfl, rfl, rfl⟩, rfl⟩

/-- Settles O14: the one next state of each; the state that `halt` leaves has the status of an ended run, so no step. -/
theorem haltEndsAndNoopAdvances : Obligations.HaltEndsAndNoopAdvances := by
  refine ⟨rfl, rfl, fun s => ⟨exec_halt s, fun u hu => ?_, exec_noop s⟩⟩
  rw [step_of_halted rfl] at hu
  cases hu

end Sys2Proof.Proofs
end

section
/-! PROOFS. `set`, `push` and `pop` (R105 to R110). -/

namespace Sys2Proof.Machine

/-- Every instruction reports the first operand that is illegal in its role (R86, R162, R163): the first half of
`firstIllegalOperandReported`, as the statement of a single instruction asks for it. -/
theorem operandFaults (i : Instr) (s : State) : OperandFaults i s := (Proofs.firstIllegalOperandReported i s).1

section Moves
variable {s t : State} {a b : Operand} {r : RegIdx} {v : Word}

/-- A legal `set` writes its value, whole, and goes on past its own three words (R106). -/
theorem exec_set (hx : s.operandExists 2 = true) (hb : s.valueOf b = some v) :
    exec (.set (.register r) b) s = .next ((s.setReg r v).advance 2) := by
  simp only [exec, execSet, regSlot_register (operandExists_mono hx (Nat.le_succ 1)), val_of_valueOf hx hb, ok_bind, finish_pure]

/-- A legal `push` does what `Push` of its value does, and goes on past its own two words (R108). -/
theorem exec_push_of_ok (hx : s.operandExists 1 = true) (ha : s.valueOf a = some v) (hp : s.push v = .ok t) :
    exec (.push a) s = .next (t.advance 1) := by
  simp only [exec, execPush, val_of_valueOf hx ha, hp, raiseAt, ok_bind, finish_pure]

/-- A legal `push` takes the fault of `Push`, its two words fetched (R108). -/
theorem exec_push_of_error {c : FaultCause} (hx : s.operandExists 1 = true) (ha : s.valueOf a = some v) (hp : s.push v = .error c) :
    exec (.push a) s = .next (s.raise (some 2) ⟨2, c⟩) := by
  simp only [exec, execPush, val_of_valueOf hx ha, hp, raiseAt, ok_bind, error_bind, finish_error, Instr.opcode]

/-- A legal `pop` writes the word that `Pop` gives, whole, and goes on past its own two words (R110). -/
theorem exec_pop_of_some (hx : s.operandExists 1 = true) (hp : s.pop = some (v, t)) :
    exec (.pop (.register r)) s = .next ((t.setReg r v).advance 1) := by
  simp only [exec, execPop, regSlot_register hx, hp, ok_bind, finish_ok]

/-- A legal `pop` faults where `Pop` gives nothing, its two words fetched (R110). -/
theorem exec_pop_of_none (hx : s.operandExists 1 = true) (hp : s.pop = none) :
    exec (.pop (.register r)) s = .next (s.raise (some 3) ⟨2, .stackUnderflow⟩) := by
  simp only [exec, execPop, regSlot_register hx, hp, ok_bind, finish_error, Instr.opcode]

end Moves

end Sys2Proof.Machine

namespace Sys2Proof.Proofs
open Sys2Proof.Machine

/-- Settles O15: `exec_set` gives the whole next state. -/
theorem setCopiesValue : Obligations.SetCopiesValue := by
  refine fun s a b => ⟨rfl, operandFaults _ s, fun r v ha hb hx => ?_⟩
  subst ha
  exact exec_set hx hb

/-- Settles O16: `Push` fails exactly on a stack at its capacity. -/
theorem pushAppendsValue : Obligations.PushAppendsValue := by
  refine fun s a => ⟨rfl, operandFaults _ s, fun v ha hx => ⟨fun hroom => ?_, fun hfull => ?_⟩⟩
  · exact exec_push_of_ok hx ha (push_eq_ok.2 ⟨hroom, rfl⟩)
  · exact exec_push_of_error hx ha (push_eq_error.2 ⟨hfull, rfl⟩)

/-- Settles O17: `Pop` gives the last word of the stack, and nothing exactly on an empty one. -/
theorem popTakesTop : Obligations.PopTakesTop := by
  refine fun s a => ⟨rfl, operandFaults _ s, fun r ha hx => ?_⟩
  subst ha
  refine ⟨fun rest v hstack => ?_, fun hempty => ?_⟩
  · exact exec_pop_of_some hx (pop_eq_some.2 ⟨rest, hstack, rfl⟩)
  · exact exec_pop_of_none hx (pop_eq_none.2 hempty)

end Sys2Proof.Proofs
end

section
/-! PROOFS. The comparisons `eq` and `gt` (R113 to R116). -/

namespace Sys2Proof.Machine

/-- The truth word of equality of the full 16 bits (R113, R114). -/
theorem eqWord_eq_ite (u v : Word) : eqWord u v = if u = v then 1 else 0 := by
  simp only [eqWord, truthWord, decide_eq_true_eq, BitVec.toNat_inj]

/-- The truth word of the unsigned order of the full 16 bits (R113, R116). -/
theorem gtWord_eq_ite (u v : Word) : gtWord u v = if v < u then 1 else 0 := by
  simp only [gtWord, truthWord, decide_eq_true_eq, BitVec.lt_def]

section RegisterAndTwoValues
variable {s : State} {b c : Operand} {r : RegIdx} {u v : Word}

/-- A legal instruction of format `F3RVV` writes its function of the two values and goes on past its own four words. -/
theorem execRVV_of_values {i : Instr} {f : Word → Word → Word} (hx : s.operandExists 3 = true) (hb : s.valueOf b = some u)
    (hc : s.valueOf c = some v) : execRVV i (.register r) b c f s = .next ((s.setReg r (f u v)).advance 3) := by
  have hx1 : s.operandExists 1 = true := operandExists_mono hx (by decide)
  have hx2 : s.operandExists 2 = true := operandExists_mono hx (by decide)
  simp only [execRVV, regSlot_register hx1, val_of_valueOf hx2 hb, val_of_valueOf hx hc, ok_bind, finish_pure]

end RegisterAndTwoValues

end Sys2Proof.Machine

namespace Sys2Proof.Proofs
open Sys2Proof.Machine

/-- Settles O18: both are `execRVV`, of the truth word of `=` and of the unsigned `>`. -/
theorem compareWritesTruth : Obligations.CompareWritesTruth := by
  refine fun s a b c => ⟨rfl, rfl, operandFaults _ s, operandFaults _ s, fun r u v ha hb hc hx => ?_⟩
  subst ha
  rw [← eqWord_eq_ite, ← gtWord_eq_ite]
  exact ⟨execRVV_of_values hx hb hc, execRVV_of_values hx hb hc⟩

end Sys2Proof.Proofs
end

section
/-! PROOFS. The jumps `jmp`, `jt` and `jf` (R119 to R124). -/

namespace Sys2Proof.Machine

theorem isNonzero_eq_true_iff {w : Word} : isNonzero w = true ↔ w ≠ 0 := by
  rw [isNonzero, decide_eq_true_eq, ne_eq, ne_eq, ← BitVec.toNat_inj]
  rfl

section Jumps
variable {s : State} {a b : Operand} {u v : Word}

/-- A legal `jmp` loads `pc` with its value, unchecked (R120). -/
theorem exec_jmp (hx : s.operandExists 1 = true) (ha : s.valueOf a = some v) : exec (.jmp a) s = .next (s.setPc v) := by
  simp only [exec, execJmp, val_of_valueOf hx ha, ok_bind, finish_pure]

/-- A legal `jt` is decided by its condition, once both values are known (R122). -/
theorem exec_jt (hx : s.operandExists 2 = true) (ha : s.valueOf a = some u) (hb : s.valueOf b = some v) :
    exec (.jt a b) s = .next (if isNonzero u then s.setPc v else s.advance 2) := by
  simp only [exec, execJt, val_of_valueOf (operandExists_mono hx (Nat.le_succ 1)) ha, val_of_valueOf hx hb, ok_bind, finish_pure]

/-- A legal `jf` is decided as `jt` is, the other way round (R124). -/
theorem exec_jf (hx : s.operandExists 2 = true) (ha : s.valueOf a = some u) (hb : s.valueOf b = some v) :
    exec (.jf a b) s = .next (if isNonzero u then s.advance 2 else s.setPc v) := by
  simp only [exec, execJf, val_of_valueOf (operandExists_mono hx (Nat.le_succ 1)) ha, val_of_valueOf hx hb, ok_bind, finish_pure]

end Jumps

end Sys2Proof.Machine

namespace Sys2Proof.Proofs
open Sys2Proof.Machine

/-- Settles O19: the jump itself checks nothing, so a target past the top is met by the opcode fetch of the next step. -/
theorem jmpLoadsTarget : Obligations.JmpLoadsTarget := by
  refine fun s a => ⟨rfl, operandFaults _ s, fun v ha hx => ⟨exec_jmp hx ha, fun hv hs => ?_⟩⟩
  exact opcodeFetchPastTopFaults { s with pc := v } hs hv

/-- Settles O20: both values are resolved before the condition is looked at. -/
theorem conditionalJumps : Obligations.ConditionalJumps := by
  refine fun s a b => ⟨rfl, rfl, operandFaults _ s, operandFaults _ s, fun u v ha hb hx => ?_⟩
  rw [exec_jt hx ha hb, exec_jf hx ha hb]
  by_cases hu : u = 0
  · subst hu
    exact ⟨rfl, rfl⟩
  · rw [isNonzero_eq_true_iff.2 hu, if_neg hu, if_neg hu]
    exact ⟨rfl, rfl⟩

end Sys2Proof.Proofs
end

section
/-! PROOFS. `call` and `ret`, and the round trip of the two (R125 to R129). -/

namespace Sys2Proof.Machine

section CallRet
variable {s t : State} {a : Operand} {v : Word}

/-- A legal `call` does what `Push` of the address after its operand word does, and loads its target (R126). -/
theorem exec_call_of_ok (hx : s.operandExists 1 = true) (ha : s.valueOf a = some v) (hp : s.push (s.pc + 2) = .ok t) :
    exec (.call a) s = .next (t.setPc v) := by
  have hp' : s.push (s.advance 1).pc = .ok t := hp
  simp only [exec, execCall, val_of_valueOf hx ha, hp', raiseAt, ok_bind, finish_pure]

/-- A legal `call` takes the fault of `Push`, its two words fetched (R126). -/
theorem exec_call_of_error {c : FaultCause} (hx : s.operandExists 1 = true) (ha : s.valueOf a = some v)
    (hp : s.push (s.pc + 2) = .error c) : exec (.call a) s = .next (s.raise (some 17) ⟨2, c⟩) := by
  have hp' : s.push (s.advance 1).pc = .error c := hp
  simp only [exec, execCall, val_of_valueOf hx ha, hp', raiseAt, ok_bind, error_bind, finish_error, Instr.opcode]

/-- `ret` loads `pc` with the word that `Pop` gives (R128). -/
theorem exec_ret_of_some (hp : s.pop = some (v, t)) : exec .ret s = .next (t.setPc v) := by
  simp only [exec, execRet, hp, finish_ok]

/-- `ret` ends the run normally where `Pop` gives nothing (R128, R129). -/
theorem exec_ret_of_none (hp : s.pop = none) : exec .ret s = .next ((s.advance 0).setStatus (.halted .retEmptyStack)) := by
  simp only [exec, execRet, hp, finish_ok]

end CallRet

section RoundTrip
variable {s t : State} {a : Operand} {ws : List Word}

/-- A `call` pushes the address after its operand word, or keeps the stack, having faulted (R126, R170). -/
theorem Change.call_stack_cases (h : Change (.call a) s t) : t.stack = s.stack ∨ t.stack = s.stack ++ [s.pc + 2] := by
  cases h with
  | call => exact .inr rfl
  | push _ _ hi | pop _ _ _ hi | ret _ _ hi => cases hi
  | _ => exact .inl rfl

/-- A step that leaves the stack no shallower than the words at its bottom keeps these words (R29). -/
theorem step_keeps_bottom (h : step s = .next t) (hws : ws <+: s.stack) (hdepth : ws.length ≤ t.sp) : ws <+: t.stack := by
  rcases Proofs.stackMovesOnlyAtTop s t h with hst | ⟨v, -, hst, -⟩ | ⟨v, hst, -⟩
  · rwa [hst]
  · rw [hst]
    exact hws.trans (List.prefix_append _ _)
  · rw [hst] at hws
    exact List.prefix_of_prefix_length_le hws (List.prefix_append _ _) hdepth

/-- Steps through states no shallower than the words at the bottom of the stack keep these words (R29). -/
theorem StepsThrough.keeps_bottom (h : StepsThrough (fun u => ws.length ≤ u.sp) s t) (hws : ws <+: s.stack) : ws <+: t.stack := by
  induction h with
  | refl => exact hws
  | tail t u _ hs hdepth ih => exact step_keeps_bottom hs ih hdepth

/-- The state at the start of such a run satisfies its predicate. -/
theorem StepsThrough.head {P : State → Prop} (h : StepsThrough P s t) : P s := by
  induction h with
  | refl hs => exact hs
  | tail _ _ _ _ _ ih => exact ih

end RoundTrip

end Sys2Proof.Machine

namespace Sys2Proof.Proofs
open Sys2Proof.Machine

/-- Settles O21: `Push` of the return address fails exactly on a stack at its capacity. -/
theorem callPushesReturnAddress : Obligations.CallPushesReturnAddress := by
  refine fun s a => ⟨rfl, operandFaults _ s, fun v ha hx => ⟨fun hroom => ?_, fun hfull => ?_⟩⟩
  · exact exec_call_of_ok hx ha (push_eq_ok.2 ⟨hroom, rfl⟩)
  · exact exec_call_of_error hx ha (push_eq_error.2 ⟨hfull, rfl⟩)

/-- Settles O22: `Pop` gives the last word of the stack, and nothing exactly on an empty one; the halt has no step. -/
theorem retPopsOrHalts : Obligations.RetPopsOrHalts := by
  refine ⟨rfl, fun s => ⟨fun rest v hstack => ?_, fun hempty => ⟨exec_ret_of_none (pop_eq_none.2 hempty), fun u hu => ?_⟩⟩⟩
  · exact exec_ret_of_some (pop_eq_some.2 ⟨rest, hstack, rfl⟩)
  · rw [step_of_halted rfl] at hu
    cases hu

/-- Settles O50: the stack that the call found, with the return address on it, stays at the bottom of every stack up to the `ret`; at
the depth that the call left it is the whole stack. -/
theorem callThenRetReturns : Obligations.CallThenRetReturns := by
  intro s s1 s2 a hcall hstep hrun hs2 hret hdepth
  have hlen : (s.stack ++ [s.pc + 2]).length = s.sp + 1 := List.length_append
  have hs1 : s1.stack = s.stack ++ [s.pc + 2] := by
    obtain ⟨hs, -⟩ := step_cases hstep
    rw [step_of_fetch hs hcall] at hstep
    refine (exec_change hstep).call_stack_cases.resolve_left fun hsame => ?_
    have hgrown : s.sp + 1 ≤ s1.sp := hrun.head
    simp [State.sp, hsame] at hgrown
  have hbottom : s.stack ++ [s.pc + 2] <+: s2.stack := by
    rw [← hlen] at hrun
    exact hrun.keeps_bottom (by rw [hs1])
  have hstack : s2.stack = s.stack ++ [s.pc + 2] := (hbottom.eq_of_length (hlen.trans hdepth.symm)).symm
  refine ⟨{ s2 with stack := s.stack, pc := s.pc + 2 }, ?_, rfl, rfl, hs2⟩
  rw [step_of_fetch hs2 hret]
  exact (retPopsOrHalts.2 s2).1 s.stack (s.pc + 2) hstack

end Sys2Proof.Proofs
end

section
/-! PROOFS. The arithmetic and logic instructions `add`, `mult`, `mod`, `and`, `or` and `not` (R130 to R141). -/

namespace Sys2Proof.Machine

/-- Modulo 32768 a word keeps its bits 14 to 0 and loses bit 15 (R130). -/
theorem reduce_toNat_eq_and (w : Word) : reduce w.toNat = w &&& 32767 := by
  have hand : w.toNat &&& (32767 : Word).toNat = w.toNat % 32768 := Nat.and_two_pow_sub_one_eq_mod w.toNat 15
  refine BitVec.eq_of_toNat_eq ?_
  rw [reduce, BitVec.toNat_ofNat, BitVec.toNat_and, hand, modulus]
  omega

/-- The complement of 16 bits, reduced, is the complement of the low 15 bits (R141). -/
theorem notWord_eq_ofNat (w : Word) : notWord w = BitVec.ofNat 16 (32767 - w.toNat % 32768) := by
  have hlt := w.isLt
  have hmod : (65535 - w.toNat) % 32768 = 32767 - w.toNat % 32768 := by omega
  rw [notWord, reduce, hmod]

/-- The complement of the complement is the word without its bit 15 (R141). -/
theorem notWord_notWord (w : Word) : notWord (notWord w) = reduce w.toNat := by
  have hinner : (notWord w).toNat = 32767 - w.toNat % 32768 := by
    rw [notWord_eq_ofNat, BitVec.toNat_ofNat]
    omega
  have hback : 32767 - (32767 - w.toNat % 32768) % 32768 = w.toNat % 32768 := by omega
  rw [notWord_eq_ofNat, hinner, hback, reduce]

section Instructions
variable {s : State} {b c : Operand} {r : RegIdx} {u v : Word}

/-- Operand word `k` of the next instruction lies in memory if the words up to it, counted from this opcode word, do (R82, R88). -/
theorem operandExists_advance {n k : Nat} (h : s.pc.toNat + (1 + n + k) < memWords) : (s.advance n).operandExists k = true := by
  rw [memWords] at h
  rw [operandExists_iff, advance_pc, BitVec.toNat_add, BitVec.toNat_ofNat, memWords]
  omega

/-- A legal `mod` is decided by its divisor, once both values are known (R135). -/
theorem exec_mod (hx : s.operandExists 3 = true) (hb : s.valueOf b = some u) (hc : s.valueOf c = some v) :
    exec (.mod (.register r) b c) s =
      if v = 0 then .next (s.raise (some 11) ⟨4, .arithmeticError u⟩) else .next ((s.setReg r (modWord u v)).advance 3) := by
  have hx1 : s.operandExists 1 = true := operandExists_mono hx (by decide)
  have hx2 : s.operandExists 2 = true := operandExists_mono hx (by decide)
  have hv : v.toNat = 0 ↔ v = 0 := BitVec.toNat_inj (y := 0)
  simp only [exec, execMod, regSlot_register hx1, val_of_valueOf hx2 hb, val_of_valueOf hx hc, ok_bind, hv]
  split
  · rfl
  · rfl

/-- A legal `not` writes the complement of its value and goes on past its own three words (R141). -/
theorem exec_not (hx : s.operandExists 2 = true) (hb : s.valueOf b = some v) :
    exec (.not (.register r) b) s = .next ((s.setReg r (notWord v)).advance 2) := by
  simp only [exec, execNot, regSlot_register (operandExists_mono hx (Nat.le_succ 1)), val_of_valueOf hx hb, ok_bind, finish_pure]

end Instructions

end Sys2Proof.Machine

namespace Sys2Proof.Proofs
open Sys2Proof.Machine

/-- Settles O23: both are `execRVV`, of the exact sum and the exact product, reduced. -/
theorem addMultModulo : Obligations.AddMultModulo := by
  refine fun s a b c => ⟨rfl, rfl, operandFaults _ s, operandFaults _ s, fun r u v ha hb hc hx => ?_⟩
  subst ha
  exact ⟨execRVV_of_values hx hb hc, execRVV_of_values hx hb hc⟩

/-- Settles O24: the divisor alone decides between the remainder and the fault. -/
theorem modRemainderOrFault : Obligations.ModRemainderOrFault := by
  refine fun s a b c => ⟨rfl, operandFaults _ s, fun r u v ha hb hc hx => ?_⟩
  subst ha
  rw [exec_mod hx hb hc]
  exact ⟨fun hv => if_neg hv, fun hv => if_pos hv⟩

/-- Settles O25: both are `execRVV`, and the reduction of their word clears its bit 15. -/
theorem andOrBitwise : Obligations.AndOrBitwise := by
  refine fun s a b c => ⟨rfl, rfl, operandFaults _ s, operandFaults _ s, fun r u v ha hb hc hx => ?_⟩
  subst ha
  rw [← reduce_toNat_eq_and, ← reduce_toNat_eq_and]
  exact ⟨execRVV_of_values hx hb hc, execRVV_of_values hx hb hc⟩

/-- Settles O26: `exec_not` gives the whole next state, with the complement of 16 bits reduced. -/
theorem notComplements : Obligations.NotComplements := by
  refine fun s a b => ⟨rfl, operandFaults _ s, fun r v ha hb hx => ?_⟩
  subst ha
  rw [← notWord_eq_ofNat]
  exact exec_not hx hb

/-- Settles O48: the second `not` finds its words three further on and reads what the first has written. -/
theorem notTwiceRestores : Obligations.NotTwiceRestores := by
  intro s r hroom
  have hx : s.operandExists 2 = true := operandExists_iff.2 (show s.pc.toNat + 2 < 32768 by omega)
  have hx' (v : Word) : ((s.setReg r v).advance 2).operandExists 2 = true :=
    operandExists_advance (show s.pc.toNat + 5 < 32768 from hroom)
  refine ⟨_, _, exec_not hx rfl, exec_not (hx' _) rfl, ?_, fun j hj => ?_⟩
  · rw [reg_advance, reg_setReg, if_pos rfl, reg_advance, reg_setReg, if_pos rfl, notWord_notWord, reduce]
  · simp [hj.symm]

end Sys2Proof.Proofs
end

section
/-! PROOFS. `rmem` and `wmem` (R142 to R145). -/

namespace Sys2Proof.Machine

section LoadStore
variable {s t : State} {a b : Operand} {r : RegIdx} {addr v : Word} {c : FaultCause}

/-- A legal `rmem` writes the word that `MemRead` gives, whole, and goes on past its own three words (R143). -/
theorem exec_rmem_of_ok (hx : s.operandExists 2 = true) (hb : s.valueOf b = some addr) (hm : memRead s.mem addr .read = .ok v) :
    exec (.rmem (.register r) b) s = .next ((s.setReg r v).advance 2) := by
  simp only [exec, execRmem, regSlot_register (operandExists_mono hx (Nat.le_succ 1)), val_of_valueOf hx hb, hm, raiseAt, ok_bind,
    finish_pure]

/-- A legal `rmem` takes the fault of `MemRead`, its three words fetched (R142, R143). -/
theorem exec_rmem_of_error (hx : s.operandExists 2 = true) (hb : s.valueOf b = some addr)
    (hm : memRead s.mem addr .read = .error c) : exec (.rmem (.register r) b) s = .next (s.raise (some 15) ⟨3, c⟩) := by
  simp only [exec, execRmem, regSlot_register (operandExists_mono hx (Nat.le_succ 1)), val_of_valueOf hx hb, hm, raiseAt, ok_bind,
    error_bind, finish_error, Instr.opcode]

/-- A legal `wmem` takes the fault of `MemWrite`, its three words fetched (R142, R145). -/
theorem exec_wmem_of_error (hx : s.operandExists 2 = true) (ha : s.valueOf a = some addr) (hb : s.valueOf b = some v)
    (hm : memWrite s.mem addr v = .error c) : exec (.wmem a b) s = .next (s.raise (some 16) ⟨3, c⟩) := by
  simp only [exec, execWmem, val_of_valueOf (operandExists_mono hx (Nat.le_succ 1)) ha, val_of_valueOf hx hb, hm, raiseAt, ok_bind,
    error_bind, finish_error, Instr.opcode]

/-- A `wmem` keeps every cell, or has stored one word at the value of its operand `a` (R145). -/
theorem Change.wmem_mem_cases (h : Change (.wmem a b) s t) :
    SameCells s t ∨ ∃ addr v, s.valueOf a = some addr ∧ t.mem = s.mem.poke addr.toNat v := by
  rcases h.mem_cases with hm | ⟨a', b', addr, v, hi, ha, -, -, hm⟩
  · exact .inl fun x => by rw [hm]
  · cases hi
    exact .inr ⟨addr, v, ha, hm⟩

end LoadStore

end Sys2Proof.Machine

namespace Sys2Proof.Proofs
open Sys2Proof.Machine

/-- Settles O27: `MemRead` gives the word of the cell below 32768 and faults from there on. -/
theorem rmemLoadsCell : Obligations.RmemLoadsCell := by
  refine fun s a b => ⟨rfl, operandFaults _ s, fun r addr ha hb hx => ?_⟩
  subst ha
  refine ⟨fun hlt => ?_, fun hge => ?_⟩
  · exact exec_rmem_of_ok hx hb (memRead_eq_ok.2 ⟨hlt, rfl⟩)
  · exact exec_rmem_of_error hx hb (memRead_eq_error.2 ⟨hge, rfl⟩)

/-- Settles O28: the memory left is the one with that cell replaced, of canonical form by `wf_poke`, its cells by `peek_poke`. -/
theorem wmemStoresCell : Obligations.WmemStoresCell := by
  refine fun s a b hwf => ⟨rfl, operandFaults _ s, fun addr v ha hb hx => ⟨fun hlt => ?_, fun hge => ?_⟩⟩
  · exact ⟨s.mem.poke addr.toNat v, exec_wmem_store hx ha hb hlt, wf_poke hwf hlt v, peek_poke hwf addr.toNat v⟩
  · exact exec_wmem_of_error hx ha hb (memWrite_eq_error.2 ⟨hge, rfl⟩)

/-- Settles O36: a store at the value of `a` shows at that cell only, and there is none where `a` has no value. -/
theorem wmemFrame : Obligations.WmemFrame := by
  intro s t a b hwf h
  have hc := exec_change h
  refine ⟨hc.sameRegs (by simp [Instr.operands]), hc.stack_eq (by simp) (by simp) (by simp),
    hc.sameStreams (by simp) (by simp), hc.statusKept (by simp) (by simp), ?_⟩
  rcases hc.wmem_mem_cases with hcells | ⟨addr, v, ha, hm⟩
  · exact ⟨fun _ _ x _ => hcells x, fun _ => hcells⟩
  · refine ⟨fun addr' ha' x hx => ?_, fun hnone => ?_⟩
    · obtain rfl : addr = addr' := Option.some.inj (ha.symm.trans ha')
      rw [hm, peek_poke hwf, if_neg hx]
    · rw [ha] at hnone
      cases hnone

end Sys2Proof.Proofs
end

section
/-! PROOFS. `out` and `in`, and the hold (R148 to R156). -/

namespace Sys2Proof.Machine

theorem lowByte_eq_ofNat_mod (w : Word) : lowByte w = BitVec.ofNat 8 (w.toNat % 256) :=
  BitVec.eq_of_toNat_eq (by simp [lowByte])

section InOut
variable {s : State} {a : Operand} {r : RegIdx} {v : Word} {b : Byte}

/-- A legal `out` appends the low byte of its value to the output, and goes on past its own two words (R150). -/
theorem exec_out (hx : s.operandExists 1 = true) (ha : s.valueOf a = some v) :
    exec (.out a) s = .next ((s.outPut (lowByte v)).advance 1) := by
  simp only [exec, execOut, val_of_valueOf hx ha, ok_bind, finish_pure]

/-- A legal `in` leaves the oldest byte, zero-extended, in its register and the rest in the queue (R153). -/
theorem exec_inp_of_cons {rest : List Byte} (hx : s.operandExists 1 = true) (hq : s.inq = b :: rest) :
    exec (.inp (.register r)) s = .next ((({ s with inq := rest } : State).setReg r (zext16 b)).advance 1) := by
  simp only [exec, execInp, regSlot_register hx, inTake_eq_some.2 ⟨rest, hq, rfl⟩, finish_ok]

/-- A legal `in` at end of input leaves the sentinel 0, where that is not fatal (R154, D9). -/
theorem exec_inp_sentinel (hx : s.operandExists 1 = true) (hq : s.inq = []) (he : s.ineof = true)
    (hp : s.params.inEofFatal = false) : exec (.inp (.register r)) s = .next ((s.setReg r 0).advance 1) := by
  simp only [exec, execInp, regSlot_register hx, inTake_eq_none.2 hq, inEof_iff.2 ⟨hq, he⟩, hp, if_true, Bool.false_eq_true,
    if_false, finish_ok]

/-- A legal `in` at end of input faults, where that is fatal, its two words fetched (R154, D9). -/
theorem exec_inp_endOfInput (hx : s.operandExists 1 = true) (hq : s.inq = []) (he : s.ineof = true)
    (hp : s.params.inEofFatal = true) : exec (.inp (.register r)) s = .next (s.raise (some 20) ⟨2, .endOfInput⟩) := by
  simp only [exec, execInp, regSlot_register hx, inTake_eq_none.2 hq, inEof_iff.2 ⟨hq, he⟩, hp, if_true, finish_error,
    Instr.opcode]

end InOut

section HostMoves
variable {s : State}

/-- Before the end mark the host can deliver any byte (R33, R35). -/
theorem hostMove_deliver (he : s.ineof = false) (b : Byte) :
    s.hostMove (.deliver b) = some { s with inq := s.inq ++ [b] } := by
  simp [State.hostMove, he]

/-- The host can set the end mark once (R33, R35). -/
theorem hostMove_endInput (he : s.ineof = false) : s.hostMove .endInput = some { s with ineof := true } := by
  simp [State.hostMove, he]

end HostMoves

end Sys2Proof.Machine

namespace Sys2Proof.Proofs
open Sys2Proof.Machine

/-- Settles O29: the byte that `exec_out` appends is the value modulo 256. -/
theorem outAppendsLowByte : Obligations.OutAppendsLowByte := by
  refine fun s a => ⟨rfl, operandFaults _ s, fun v ha hx => ?_⟩
  rw [← lowByte_eq_ofNat_mod]
  exact exec_out hx ha

/-- Settles O30: one rule of `in` for each case of the queue, the end mark and the parameter. -/
theorem inTakesOldestByte : Obligations.InTakesOldestByte := by
  refine fun s a => ⟨rfl, operandFaults _ s, fun r ha hx => ?_⟩
  subst ha
  exact ⟨fun b rest hq => exec_inp_of_cons hx hq, exec_inp_sentinel hx, exec_inp_endOfInput hx, exec_inp_held hx⟩

/-- Settles O31: the host's move leaves the same `in` at `pc`, which then takes the byte delivered or meets the end of input. -/
theorem holdIsLiftedByHost : Obligations.HoldIsLiftedByHost := by
  intro s hheld
  obtain ⟨hs, ⟨r, hf⟩, hx, hq, he⟩ := held_iff.1 hheld
  have hstop : step s = .fault .heldForInput := (runningCoreStepsUnlessHeld s hs).2 hheld
  have hstep (q : List Byte) (e : Bool) :
      step { s with inq := q, ineof := e } = exec (.inp (.register r)) { s with inq := q, ineof := e } := step_of_fetch hs hf
  refine ⟨fun t => by simp [hstop], hstop, r, hf, fun b => ⟨_, hostMove_deliver he b, ?_⟩, _, hostMove_endInput he, ?_, ?_⟩
  · calc step { s with inq := s.inq ++ [b] }
      _ = exec (.inp (.register r)) { s with inq := s.inq ++ [b] } := hstep _ _
      _ = .next ((({ s with inq := s.inq } : State).setReg r (zext16 b)).advance 1) :=
        exec_inp_of_cons hx (by simp [hq])
  · exact fun hp => (hstep s.inq true).trans (exec_inp_sentinel hx hq rfl hp)
  · exact fun hp => (hstep s.inq true).trans (exec_inp_endOfInput hx hq rfl hp)

/-- Settles O37: the frames of `Change`; `out` has no register slot and leaves the queue, `in` leaves the output. -/
theorem inOutFrame : Obligations.InOutFrame := by
  intro s t a
  refine ⟨fun h => ?_, fun h => ?_⟩
  · have hc := exec_change h
    obtain ⟨heof, hparams⟩ := hc.ineof_params_eq
    have hinq : t.inq = s.inq := hc.inq_cases.resolve_right (by simp)
    have hout : t.out = s.out ∨ ∃ b, t.out = s.out ++ [b] := hc.out_cases.imp_right fun ⟨b, _, ho, _⟩ => ⟨b, ho⟩
    exact ⟨hc.sameRegs (by simp [Instr.operands]), hc.sameCells (by simp), hc.stack_eq (by simp) (by simp) (by simp),
      hc.statusKept (by simp) (by simp), hparams, hinq, heof, hout⟩
  · have hc := exec_change h
    obtain ⟨heof, hparams⟩ := hc.ineof_params_eq
    have hout : t.out = s.out := hc.out_cases.resolve_right (by simp)
    have hinq : t.inq = s.inq ∨ ∃ b, s.inq = b :: t.inq := hc.inq_cases.imp_right fun ⟨b, _, hq, _⟩ => ⟨b, hq⟩
    exact ⟨fun j hj => hc.reg_eq rfl hj, hc.sameCells (by simp), hc.stack_eq (by simp) (by simp) (by simp),
      hc.statusKept (by simp) (by simp), hparams, heof, hout, hinq⟩

end Sys2Proof.Proofs
end

section
/-! PROOFS. Fault entry: what a faulting step leaves and what it reports (R160, R167, R170, R171). -/

namespace Sys2Proof.Machine

section FaultEntry
variable {i : Instr} {s t : State} {f : FaultReport}

/-- An instruction of a running core that leaves a fault has raised it by fault entry (R170). -/
theorem Change.fault_entry (h : Change i s t) (hs : s.status = .running) (ht : t.status = .faulted f) :
    ∃ e : Raised, t = s.raise (some i.opcode) e ∧ mayRaise i.opcode e.cause = true ∧
      1 ≤ e.fetched ∧ e.fetched ≤ 1 + i.operands.length := by
  cases h with
  | fault e hc hn => exact ⟨e, rfl, hc, hn⟩
  | halt | retEmpty => cases ht
  | _ => cases hs.symm.trans ht

/-- Everything a faulting step can be: the opcode fetch faulted, or the word at `pc` raised a fault of its row of R167 after at most
four words were fetched. -/
theorem step_fault_cases (h : step s = .next t) (ht : t.status = .faulted f) :
    (memWords ≤ s.pc.toNat ∧ t = s.raise none ⟨0, .addressOutOfRange s.pc .fetch⟩ ∧
      f = ⟨.addressOutOfRange s.pc .fetch, s.pc, none⟩) ∨
    (s.pc.toNat < memWords ∧ ∃ e : Raised, t = s.raise (some (s.mem.peek s.pc.toNat)) e ∧
      f = ⟨e.cause, s.pc, some (s.mem.peek s.pc.toNat)⟩ ∧ mayRaise (s.mem.peek s.pc.toNat) e.cause = true ∧
      1 ≤ e.fetched ∧ e.fetched ≤ 4) := by
  obtain ⟨hs, ⟨e, hf, rfl⟩ | ⟨i, hf, hc⟩⟩ := step_cases h
  · cases ht
    rcases fetchInstr_eq_error.1 hf with ⟨hpc, rfl⟩ | ⟨hpc, hop, rfl⟩
    · exact .inl ⟨hpc, rfl, rfl⟩
    · exact .inr ⟨hpc, _, rfl, rfl, by simpa [mayRaise] using hop, by simp⟩
  · obtain ⟨hpc, hd⟩ := fetchInstr_eq_ok.1 hf
    obtain ⟨e, rfl, hmay, hlo, hhi⟩ := hc.fault_entry hs ht
    cases ht
    have hlen := operands_length_le i
    rw [(decode_eq_ok hd).1] at hmay ⊢
    exact .inr ⟨hpc, e, rfl, rfl, hmay, hlo, by omega⟩

/-- The table of R167 gives UnknownOpcode to the words from 22 on only, each reporting itself (R161). -/
theorem mayRaise_unknownOpcode {op w : Word} : mayRaise op (.unknownOpcode w) = true ↔ w = op ∧ nOpcodes ≤ op.toNat := by
  simp [mayRaise]

end FaultEntry

end Sys2Proof.Machine

namespace Sys2Proof.Proofs
open Sys2Proof.Machine

/-- Settles O10: the fault of the dispatch one way, the row of R167 the other way. -/
theorem unknownOpcodeFaults : Obligations.UnknownOpcodeFaults := by
  refine ⟨fun s hs hpc hop => step_of_unknownOpcode hs hpc hop, fun s t f w h ht hcause => ?_⟩
  rcases step_fault_cases h ht with ⟨-, -, rfl⟩ | ⟨-, e, -, rfl, hmay, -⟩
  · cases hcause
  · rw [show e.cause = .unknownOpcode w from hcause, mayRaise_unknownOpcode] at hmay
    obtain ⟨rfl, hop⟩ := hmay
    exact ⟨rfl, hop⟩

/-- Settles O45: fault entry in each of the two cases of a faulting step. -/
theorem faultsArePrecise : Obligations.FaultsArePrecise := by
  intro s t f h ht
  rcases step_fault_cases h ht with ⟨hpc, rfl, rfl⟩ | ⟨hpc, e, rfl, rfl, -, hlo, hhi⟩
  · exact ⟨rfl, rfl, .inl ⟨rfl, hpc, by simp⟩⟩
  · exact ⟨rfl, rfl, .inr ⟨rfl, hpc, e.fetched, hlo, hhi, rfl⟩⟩

/-- Settles O46: the report of each of the two cases of a faulting step. -/
theorem faultKindsFollowTable : Obligations.FaultKindsFollowTable := by
  intro s t f h ht
  rcases step_fault_cases h ht with ⟨hpc, -, rfl⟩ | ⟨-, e, -, rfl, hmay, -⟩
  · exact ⟨fun _ => ⟨rfl, hpc⟩, nofun⟩
  · refine ⟨nofun, fun op hop => ?_⟩
    cases hop
    exact ⟨rfl, hmay⟩

end Sys2Proof.Proofs
end

section
/-! PROOFS. Deliveries and steps commute, and the invariant along runs from a launch (R192, R196, R197). -/

namespace Sys2Proof.Machine

/-- The state after the delivery of a byte (R33): the byte stands last in the input queue. -/
def State.delivered (b : Byte) (s : State) : State := { s with inq := s.inq ++ [b] }

section
variable (b : Byte) (s : State)

@[simp] theorem regSlot_delivered (k : Nat) (a : Operand) : regSlot (s.delivered b) k a = regSlot s k a := rfl

@[simp] theorem val_delivered (k : Nat) (a : Operand) : val (s.delivered b) k a = val s k a := by
  cases a <;> rfl

@[simp] theorem push_delivered (v : Word) : (s.delivered b).push v = (s.push v).map (State.delivered b) := by
  by_cases h : s.params.stackCapacity = some s.stack.length <;>
    simp [State.push, State.sp, State.delivered, h, Except.map]

@[simp] theorem pop_delivered : (s.delivered b).pop = s.pop.map (Prod.map id (State.delivered b)) := by
  cases h : s.stack.getLast? <;> simp [State.pop, State.delivered, h]

end

section
variable {b : Byte} {i : Instr} {a : Operand} {s s' t : State}

/-- Where the host can deliver a byte, and the state after it (R33). -/
theorem hostMove_deliver_eq_some : s.hostMove (.deliver b) = some s' ↔ s.ineof = false ∧ s' = s.delivered b := by
  simp [State.hostMove, State.delivered, eq_comm (a := s')]

/-- An instruction that computes the same effect ends the same, its fault included (R170). -/
theorem finish_delivered {x y : Except Raised State} (h : y = x.map (.delivered b)) :
    finish i (s.delivered b) y = mapNext (.delivered b) (finish i s x) := by
  subst h
  cases x <;> rfl

/-- An instruction other than `in` answers the same before and after a delivery (R197): it does not look at the input queue. -/
theorem exec_delivered (hi : ∀ a, i ≠ .inp a) : exec i (s.delivered b) = mapNext (.delivered b) (exec i s) := by
  cases i with
  | inp a => exact absurd rfl (hi a)
  | halt | noop => rfl
  | pop a =>
    refine finish_delivered ?_
    simp only [regSlot_delivered, pop_delivered, except_map_bind]
    congr 1
    funext r
    cases s.pop <;> rfl
  | ret =>
    refine finish_delivered ?_
    rw [pop_delivered]
    cases s.pop <;> rfl
  | jt _ _ | jf _ _ | mod _ _ _ =>
    refine finish_delivered ?_
    simp only [regSlot_delivered, val_delivered, except_map_bind, apply_ite]
    rfl
  | _ =>
    refine finish_delivered ?_
    simp only [regSlot_delivered, val_delivered, push_delivered, except_map_bind, raiseAt_map_bind]
    rfl

/-- An `in` that has a step before the end mark faults on its operand or takes the oldest byte, and a delivery puts its byte behind
that one (R153, R197). -/
theorem exec_inp_delivered (he : s.ineof = false) (h : exec (.inp a) s = .next t) :
    exec (.inp a) (s.delivered b) = .next (t.delivered b) := by
  cases hr : regSlot s 1 a with
  | error e =>
    simp only [exec, execInp, regSlot_delivered, hr, finish_error] at h ⊢
    cases h
    rfl
  | ok r =>
    obtain ⟨hx, rfl⟩ := regSlot_eq_ok.1 hr
    cases hq : s.inq with
    | nil =>
      rw [exec_inp_held hx hq he] at h
      cases h
    | cons c rest =>
      rw [exec_inp_of_cons hx hq] at h
      cases h
      exact exec_inp_of_cons (s := s.delivered b) hx (congrArg (· ++ [b]) hq)

/-- A step that the core has before the end mark is the same step after a delivery (R197). -/
theorem step_delivered (he : s.ineof = false) (h : step s = .next t) : step (s.delivered b) = .next (t.delivered b) := by
  have hs : s.status = .running := (step_cases h).1
  cases hf : s.fetchInstr with
  | error e =>
    rw [step_of_fetch_error hs hf] at h
    cases h
    exact step_of_fetch_error hs hf
  | ok i =>
    rw [step_of_fetch hs hf] at h
    rw [step_of_fetch (s := s.delivered b) hs hf]
    by_cases hi : ∃ a, i = .inp a
    · obtain ⟨a, rfl⟩ := hi
      exact exec_inp_delivered he h
    · rw [exec_delivered fun a ha => hi ⟨a, ha⟩, h]
      rfl

/-- A launch that is not refused starts in a state that satisfies the invariant (R192). -/
theorem launch_inv {params : Config} {img : List Word} (h : launch params img = some s) : s.Inv := by
  obtain ⟨hplaced, hrefused⟩ := Proofs.launchPlacesImage params img
  rcases Nat.lt_or_ge 32768 img.length with hlen | hlen
  · rw [hrefused hlen] at h
    cases h
  · obtain ⟨u, hu, -, hinv, -⟩ := hplaced hlen
    rw [h] at hu
    cases hu
    exact hinv

/-- A run keeps the invariant, since steps and the host's moves do (R35, R196). -/
theorem Run.inv (h : Run s t) (hs : s.Inv) : t.Inv := by
  induction h with
  | start => exact hs
  | step u v _ hstep ih => exact Proofs.stepKeepsInv u v ih hstep
  | host u v move _ hm ih => exact hostMove_inv hm ih

end

end Sys2Proof.Machine

namespace Sys2Proof.Proofs
open Sys2Proof.Machine

/-- Settles O43: a step leaves the end mark, so the host can still deliver, and `step_delivered` is the rest. -/
theorem deliveryCommutesWithStep : Obligations.DeliveryCommutesWithStep := by
  intro s s' t b h hm
  obtain ⟨he, rfl⟩ := hostMove_deliver_eq_some.1 hm
  obtain ⟨-, -, heof, -⟩ := streamsOnlyByInOut s t h
  exact ⟨t.delivered b, hostMove_deliver_eq_some.2 ⟨heof.trans he, rfl⟩, step_delivered he h⟩

/-- Settles O59: the launched state satisfies the invariant, and the run keeps it. -/
theorem runsFromLaunchKeepInv : Obligations.RunsFromLaunchKeepInv :=
  fun _ _ _ _ hl hrun => hrun.inv (launch_inv hl)

end Sys2Proof.Proofs
end
